-- ==== Sys2Proof/Word.lean ====
section
/-! DEFINITION. The values of the architecture. Every word of memory, register and address is a mathematical integer, never
a bit pattern (00_scope.md R8, R9): the type is Lean's `Int`, written so in every file, and there is no width to name. -/

namespace Sys2Proof

/-- The nominal range of a word, four decimal digits and a sign: "descriptive only, never enforced" (R8, 90_conflicts.md C7).
No operation of the machine reads it. -/
def isNominalWord (w : Int) : Bool := decide (-9999 ≤ w) && decide (w ≤ 9999)

end Sys2Proof
end

