-- ==== Sys2Proof/Config.lean ====
section
/-! DEFINITION. The constants of the hardware (00_scope.md R8, 10_state.md R38), and the one open parameter. -/

namespace Sys2Proof

/-- `CAPACITY`: the number of memory words, fixed at 100 (R8, R46). -/
abbrev Config.capacity : Int := 100

/-- The decode divisor: a word splits into operation code and operand by 100 (R38, R61). -/
abbrev Config.splitBase : Int := 100

/-- `REALISATION_BOUND` (R8, 92_eei_decisions.md D2): the largest magnitude the storage of a physical
realisation holds. OPEN in the spec and "not an argument of the architectural model": `step` never reads it,
only `finiteStep` does (log entry 9). It has no body, so no proof can see a value of it. -/
opaque Config.realisationBound : Nat

end Sys2Proof
end

