-- ==== Sys2Proof/Machine/Floor.lean ====
section
/-! DEFINITION. Floored division and modulo (00_scope.md R10), used by the decoder (R61) and by DIVIDE (R93). -/

namespace Sys2Proof

/-- `fdiv(a, b)`, the real quotient rounded toward negative infinity (R10). For `b = 0` the spec gives no
value and no rule asks for one: DIVIDE tests the divisor first (R93). -/
def fdiv (a b : Int) : Int := Int.fdiv a b

/-- `fmod(a, b) = a − b · fdiv(a, b)` (R10). -/
def fmod (a b : Int) : Int := a - b * fdiv a b

/-- The operation code of a word, `fdiv(word, 100)` (R61). -/
def opcodeOf (w : Int) : Int := fdiv w Config.splitBase

/-- The operand of a word, `fmod(word, 100)` (R61). -/
def operandOf (w : Int) : Int := fmod w Config.splitBase

end Sys2Proof
end

