-- ==== Sys2Proof/Syntax.lean ====
section
/-! DEFINITION. The instructions: one constructor per row of spec/opcode_table.json (30_encoding.md R65, R66). -/

namespace Sys2Proof

/-- The Simpletron instruction set. `m` is the operand, the one operand field there is (R62): a memory
address or a branch target. -/
inductive Instr where
  /-- READ, operation code 10 (41_io.md R86): `m` is the destination address. -/
  | read (m : Int)
  /-- WRITE, operation code 11 (41_io.md R87): `m` is the source address. -/
  | write (m : Int)
  /-- LOAD, operation code 20 (42_load_store.md R89). -/
  | load (m : Int)
  /-- STORE, operation code 21 (42_load_store.md R90). -/
  | store (m : Int)
  /-- ADD, operation code 30 (43_arithmetic.md R91). -/
  | add (m : Int)
  /-- SUBTRACT, operation code 31 (43_arithmetic.md R92). -/
  | subtract (m : Int)
  /-- DIVIDE, operation code 32 (43_arithmetic.md R93): `m` is the divisor's address. -/
  | divide (m : Int)
  /-- MULTIPLY, operation code 33 (43_arithmetic.md R94). -/
  | multiply (m : Int)
  /-- BRANCH, operation code 40 (44_control.md R99): `m` is the target. -/
  | branch (m : Int)
  /-- BRANCHNEG, operation code 41 (44_control.md R100). -/
  | branchneg (m : Int)
  /-- BRANCHZERO, operation code 42 (44_control.md R101). -/
  | branchzero (m : Int)
  /-- HALT, operation code 43 (44_control.md R102): the operand is ignored, and kept so that encoding loses nothing. -/
  | halt (m : Int)
  /-- The table's row "(illegal)": any word `w` whose operation code is none of the twelve (R66). -/
  | illegal (w : Int)
  deriving DecidableEq, Repr

end Sys2Proof
end

