-- ==== Sys2Proof/WellFormed.lean ====
section
/-! DEFINITION. Which instruction terms the hardware can hold in a word: the operand is an address in [0, 99]
(30_encoding.md R61, R67), and an illegal word is one whose operation code is none of the twelve (R66). -/

namespace Sys2Proof

/-- The operation codes that select an instruction (R65). -/
def definedOpcodes : List Int := [10, 11, 20, 21, 30, 31, 32, 33, 40, 41, 42, 43]

/-- The operand fits its two digits (R59, R67). -/
def operandInRange (m : Int) : Bool := decide (0 ≤ m) && decide (m ≤ 99)

/-- The word selects none of the twelve instructions (R66). -/
def selectsNone (w : Int) : Bool := !definedOpcodes.contains (opcodeOf w)

/-- The check of an instruction term, constructor by constructor. -/
def Instr.wellFormed : Instr → Bool
  | .read m => operandInRange m
  | .write m => operandInRange m
  | .load m => operandInRange m
  | .store m => operandInRange m
  | .add m => operandInRange m
  | .subtract m => operandInRange m
  | .divide m => operandInRange m
  | .multiply m => operandInRange m
  | .branch m => operandInRange m
  | .branchneg m => operandInRange m
  | .branchzero m => operandInRange m
  | .halt m => operandInRange m
  | .illegal w => selectsNone w

/-- `i` is a term some word encodes. -/
abbrev Instr.WellFormed (i : Instr) : Prop := i.wellFormed = true

end Sys2Proof
end

