-- ==== Sys2Proof/Decode.lean ====
section
/-! DEFINITION. The decoder, total on every integer (30_encoding.md R61, R65, R66, R69), and after it the encoder,
written from the same table. -/

namespace Sys2Proof

/-- The twelve-row table of R65 on an operation code and an operand; every other operation code is rejected by name
as `illegal`, with the offending word (R66, R69). -/
def lookup (opc : Int) (m : Int) (w : Int) : Instr :=
  match opc with
  | 10 => .read m
  | 11 => .write m
  | 20 => .load m
  | 21 => .store m
  | 30 => .add m
  | 31 => .subtract m
  | 32 => .divide m
  | 33 => .multiply m
  | 40 => .branch m
  | 41 => .branchneg m
  | 42 => .branchzero m
  | 43 => .halt m
  | _ => .illegal w

/-- The instruction a word stands for (R69). -/
def decode (w : Int) : Instr := lookup (opcodeOf w) (operandOf w) w

/-- The word of an instruction: the first word of its row's range in R65, plus the operand. An illegal
instruction is its own word. -/
def encode : Instr → Int
  | .read m => 1000 + m
  | .write m => 1100 + m
  | .load m => 2000 + m
  | .store m => 2100 + m
  | .add m => 3000 + m
  | .subtract m => 3100 + m
  | .divide m => 3200 + m
  | .multiply m => 3300 + m
  | .branch m => 4000 + m
  | .branchneg m => 4100 + m
  | .branchzero m => 4200 + m
  | .halt m => 4300 + m
  | .illegal w => w

/-- The operation code an instruction's word carries (R65). -/
def Instr.opcode : Instr → Int
  | .read _ => 10
  | .write _ => 11
  | .load _ => 20
  | .store _ => 21
  | .add _ => 30
  | .subtract _ => 31
  | .divide _ => 32
  | .multiply _ => 33
  | .branch _ => 40
  | .branchneg _ => 41
  | .branchzero _ => 42
  | .halt _ => 43
  | .illegal w => opcodeOf w

/-- The operand an instruction's word carries (R61). -/
def Instr.operand : Instr → Int
  | .read m => m
  | .write m => m
  | .load m => m
  | .store m => m
  | .add m => m
  | .subtract m => m
  | .divide m => m
  | .multiply m => m
  | .branch m => m
  | .branchneg m => m
  | .branchzero m => m
  | .halt m => m
  | .illegal w => operandOf w

/-- The instruction read from the table's word `w`. A word of this hardware is an integer and has no bits
(R9), so `w` is the word's value and `nbits` carries nothing (log entry 6). -/
def decodeTableWord (_nbits w : Nat) : Option Instr := some (decode (Int.ofNat w))

end Sys2Proof
end

