-- ==== Sys2Proof/Machine/State.lean ====
section
/-! DEFINITION. The state of the machine as plain data: the tuple of 10_state.md R38, the event history beside it, and
the script of the two agents' turns; the reasons a step can stop; the state after reset. -/

namespace Sys2Proof.Machine

/-- `RS` (R28). -/
inductive RunState where
  | ready
  | running
  | halted
  deriving DecidableEq, Repr

/-- The encoding of `RS` (R28). -/
def RunState.code : RunState → Nat
  | .ready => 0
  | .running => 1
  | .halted => 2

/-- `HC` (R30): the register is one field with five legal values. -/
inductive HaltCause where
  /-- Code 0, `NONE`: not halted. -/
  | none
  /-- Code 1, `HALT`: "execution halted". -/
  | halt
  /-- Code 2, `DIVIDE_BY_ZERO`: "division by zero". -/
  | divideByZero
  /-- Code 3, `UNKNOWN_OPCODE`: "unknown operation code". -/
  | unknownOpcode
  /-- Code 4, `OUT_OF_BOUNDS`. -/
  | outOfBounds
  deriving DecidableEq, Repr

/-- The codes of `HC` (R30). -/
def HaltCause.code : HaltCause → Nat
  | .none => 0
  | .halt => 1
  | .divideByZero => 2
  | .unknownOpcode => 3
  | .outOfBounds => 4

/-- One listed word of memory: its address and its value. The unit is the word, an integer; this
hardware has no bytes (R27, R43; log entry 1). -/
abbrev Cell := Nat × Int

/-- The memory array `M` (R27), sparse: addresses strictly rising, no word that reads as an unlisted one. -/
abbrev Memory := List Cell

/-- The result a load is acknowledged with (R35). -/
inductive LoadResult where
  | ok
  | loadError
  deriving DecidableEq, Repr

/-- What a diagnostic dump carries, as exact integers (60_exceptions.md R119). -/
structure Snapshot where
  acc : Int
  pc : Int
  ir : Int
  opc : Int
  opd : Int
  rs : RunState
  hc : HaltCause
  /-- `M[0]` to `M[99]`, in address order. -/
  words : List Int
  deriving DecidableEq, Repr

/-- The port events (R35), both directions. -/
inductive Event where
  | reset
  | load (ws : List Int)
  | loadAbort
  | loadAck (r : LoadResult)
  | run
  | inReq (m : Int)
  | inData (v : Int)
  | out (m : Int) (v : Int)
  | status (c : HaltCause)
  | dumpReq
  | dump (d : Snapshot)
  deriving DecidableEq, Repr

/-- The host's six moves: the events of R35 whose direction is host to core. -/
inductive HostEvent where
  | reset
  | load (ws : List Int)
  | loadAbort
  | run
  | inData (v : Int)
  | dumpReq
  deriving DecidableEq, Repr

/-- A host move as the event it is recorded as (R35). -/
def HostEvent.toEvent : HostEvent → Event
  | .reset => .reset
  | .load ws => .load ws
  | .loadAbort => .loadAbort
  | .run => .run
  | .inData v => .inData v
  | .dumpReq => .dumpReq

/-- Whose move is next (R18: two agents). The MODEL's own, log entry 2. -/
inductive Turn where
  /-- The core takes an instruction step. -/
  | core
  /-- The host offers this event; it is taken as soon as R36 admits it. -/
  | host (e : HostEvent)
  deriving DecidableEq, Repr

/-- The machine. -/
structure State where
  /-- `ACC` (R21). -/
  acc : Int
  /-- Instruction counter (R25), in [0, 100]. -/
  pc : Int
  /-- `IR` (R22). -/
  ir : Int
  /-- `OPC` (R23). -/
  opc : Int
  /-- `OPD` (R24), in [0, 99]. -/
  opd : Int
  /-- `M` (R27). -/
  mem : Memory
  /-- `RS` (R28); the halted flag is `rs = halted` (R29). -/
  rs : RunState
  /-- `HC` (R30). -/
  hc : HaltCause
  /-- `PEND` (R31): the address a READ waits to fill. -/
  pend : Option Int
  /-- `H` (R35), oldest event first. -/
  hist : List Event
  /-- The turns to come, the next one first. The MODEL's own field, not the spec's (log entry 2): the host's future
  moves "are not state but draws the host makes at each event" (R38). An empty script leaves every turn to the core. -/
  script : List Turn
  deriving DecidableEq, Repr

/-- Why `step` has no next state. No instruction raises any of these: every fault of the spec is a halt entry,
which is a next state (60_exceptions.md R106). -/
inductive Fault where
  /-- Raised by the core's turn in `Ready`: the core has no step before `Run` (R73, R122). Safe. -/
  | notStarted
  /-- Raised by the core's turn in `Halted`: the run has ended and the core has no step (R80, R84). Safe. -/
  | runEnded
  /-- Raised by the core's turn while a READ waits and the host's next move is not an input: the core has no
  step (R73, R86; 93_implementation_defined.md I12, stuck). Safe. -/
  | awaitingInput
  /-- Raised by `finiteStep` alone, never by `step`: a value beyond what a finite realisation holds
  (92_eei_decisions.md D2: "must fault (not wrap) there"; log entry 9). Safe. -/
  | beyondRealisation
  deriving DecidableEq, Repr

/-- Why `exec` would give no meaning. -/
inductive Refusal where
  /-- Reserved for an arm of `exec` with no meaning; no arm of this model raises it. Safe. -/
  | notModelled (mnemonic : String)
  deriving DecidableEq, Repr

/-- What a step or a meaning answers. -/
abbrev Result := Host.Outcome State Fault Refusal

/-- The machine right after power-on (R37, R123): every value is the spec's. `script` is the model's own field, empty
by DESIGN CHOICE (log entry 2): nothing is placed for the host to do. -/
def State.reset : State :=
  { acc := 0, pc := 0, ir := 0, opc := 0, opd := 0, mem := [], rs := .ready, hc := .none, pend := none,
    hist := [], script := [] }

end Sys2Proof.Machine
end

