-- ==== Sys2Proof/Machine/Ops.lean ====
section
/-! DEFINITION. The named operations over memory, registers and the event history (00_scope.md R11, R12, R14), the halt
entry every fault and HALT go through (60_exceptions.md R106), and beside it the only way out of it, reset (R112, R125). -/

namespace Sys2Proof.Machine

/-! ## Memory -/

/-- What a word that nothing has written reads as: the spec's reset value (R27, R42). -/
def Memory.unlisted : Int := 0

/-- The word at index `a` (R42). -/
def Memory.read : Memory → Nat → Int
  | [], _ => Memory.unlisted
  | (k, v) :: rest, a => if k = a then v else Memory.read rest a

/-- Memory with `v` at index `a` (R42), in canonical form: a word that reads as an unlisted one is not listed. -/
def Memory.write : Memory → Nat → Int → Memory
  | [], a, v => if v = Memory.unlisted then [] else [(a, v)]
  | (k, w) :: rest, a, v =>
    if a < k then
      (if v = Memory.unlisted then (k, w) :: rest else (a, v) :: (k, w) :: rest)
    else if a = k then
      (if v = Memory.unlisted then rest else (a, v) :: rest)
    else (k, w) :: Memory.write rest a v

/-- The canonical form from index `lo` on: indexes strictly rising from `lo`, all below 100, no listed word
that reads as an unlisted one. -/
def Memory.wfFrom : Nat → Memory → Bool
  | _, [] => true
  | lo, (k, v) :: rest =>
    decide (lo ≤ k) && decide (k < 100) && decide (v ≠ Memory.unlisted) && Memory.wfFrom (k + 1) rest

/-- The canonical form of memory. -/
def Memory.wf (m : Memory) : Bool := Memory.wfFrom 0 m

/-- All 100 words 0 (R48, R49, R125), in canonical form. -/
def Memory.zeroed : Memory := []

/-- The words `ws` stored from index `i` on (R47). -/
def Memory.writeFrom : Memory → Nat → List Int → Memory
  | m, _, [] => m
  | m, i, w :: ws => Memory.writeFrom (Memory.write m i w) (i + 1) ws

/-- Addresses of memory (R41, R46). -/
abbrev inBounds (a : Int) : Prop := 0 ≤ a ∧ a < Config.capacity

/-- `M[a]`, for an address in bounds. -/
def State.word (s : State) (a : Int) : Int := s.mem.read a.toNat

/-- `M[0]` to `M[99]`, in address order (R27). -/
def allWords (s : State) : List Int := (List.range 100).map fun i => s.word (Int.ofNat i)

/-- `MemRead(a, 1)` (R12, R42); no word for an address out of bounds (R41). -/
def memRead (a : Int) (s : State) : Option Int :=
  if inBounds a then some (s.word a) else none

/-- The state with `M[a] = v`, for an address in bounds. -/
def setWord (a : Int) (v : Int) (s : State) : State := { s with mem := s.mem.write a.toNat v }

/-- `MemWrite(a, 1, v)` (R12, R42); no state for an address out of bounds (R41). -/
def memWrite (a : Int) (v : Int) (s : State) : Option State :=
  if inBounds a then some (setWord a v s) else none

/-! ## Registers and events -/

/-- `ACC <- v`, with no clamp or wrap (R21). -/
def setAcc (v : Int) (s : State) : State := { s with acc := v }

/-- `pc <- a` (R25). -/
def setPc (a : Int) (s : State) : State := { s with pc := a }

/-- `PEND <- p` (R31). -/
def setPend (p : Option Int) (s : State) : State := { s with pend := p }

/-- `emit e`: append `e` to the history (R14, R35). -/
def emit (e : Event) (s : State) : State := { s with hist := s.hist ++ [e] }

/-! ## Taking a fault, and reset -/

/-- The halt entry `enter_halt(c)` (R106): the one way into `Halted`. -/
def enterHalt (c : HaltCause) (s : State) : State := emit (.status c) { s with rs := .halted, hc := c }

/-- `raise Fault(c, info)` (R14, R106): the rest of the instruction is abandoned and the core halts. The identifying
value is left where R105 says and is not stored again. -/
def raiseFault (c : HaltCause) (s : State) : Result := .next (enterHalt c s)

/-- The effect of `Reset` (R125): every piece of state to its reset value. The history stays (R125), and so does
the script, which is the host's own (log entry 2). There is no return from a fault but this (R112). -/
def resetMachine (s : State) : State := { State.reset with hist := s.hist, script := s.script }

end Sys2Proof.Machine
end

