-- ==== Sys2Proof/Machine/Operands.lean ====
section
/-! DEFINITION. The one operand form: the direct address `m` (30_encoding.md R62), read and written through the bounds
check of 20_memory.md R41. -/

namespace Sys2Proof.Machine

/-- The operand read path (R40): go on with `M[m]`, or raise OUT_OF_BOUNDS (R41). -/
def withOperand (m : Int) (s : State) (use : Int → Result) : Result :=
  match memRead m s with
  | some v => use v
  | none => raiseFault .outOfBounds s

/-- The operand write path (R40): `M[m] <- v`, or raise OUT_OF_BOUNDS (R41). -/
def toOperand (m : Int) (v : Int) (s : State) : Result :=
  match memWrite m v s with
  | some t => .next t
  | none => raiseFault .outOfBounds s

end Sys2Proof.Machine
end

