-- ==== Sys2Proof/Machine/Arithmetic.lean ====
section
/-! DEFINITION. The ALU and its four instructions (43_arithmetic.md R91 to R98): exact on ℤ, no width, no overflow (R95). -/

namespace Sys2Proof.Machine

/-- The ALU's select (R98). -/
inductive AluOp where
  | add
  | subtract
  | divide
  | multiply
  deriving DecidableEq, Repr

/-- The ALU on `A = ACC` and `B = M[m]` (R98); `none` is the divide-by-zero signal. -/
def alu (op : AluOp) (a b : Int) : Option Int :=
  match op with
  | .add => some (a + b)
  | .subtract => some (a - b)
  | .divide => if b = 0 then none else some (fdiv a b)
  | .multiply => some (a * b)

/-- The result goes to `ACC` only when no divide-by-zero signal is raised (R98). -/
def aluToAcc (op : AluOp) (m : Int) (s : State) : Result :=
  withOperand m s fun b =>
    match alu op s.acc b with
    | some r => .next (setAcc r s)
    | none => raiseFault .divideByZero s

/-- ADD (R91). -/
def execAdd (m : Int) (s : State) : Result := aluToAcc .add m s

/-- SUBTRACT (R92): the accumulator is the minuend. -/
def execSubtract (m : Int) (s : State) : Result := aluToAcc .subtract m s

/-- DIVIDE (R93): floored quotient, or DIVIDE_BY_ZERO with `ACC` unchanged. -/
def execDivide (m : Int) (s : State) : Result := aluToAcc .divide m s

/-- MULTIPLY (R94). -/
def execMultiply (m : Int) (s : State) : Result := aluToAcc .multiply m s

end Sys2Proof.Machine
end

