-- ==== Sys2Proof/Machine/Flags.lean ====
section
/-! DEFINITION. The core has no flags (10_state.md R26); the two branch conditions are computed from `ACC` at the time
they are tested. -/

namespace Sys2Proof.Machine

/-- BRANCHNEG's condition (R26, R100). -/
def accNegative (s : State) : Bool := decide (s.acc < 0)

/-- BRANCHZERO's condition (R26, R101). -/
def accZero (s : State) : Bool := decide (s.acc = 0)

end Sys2Proof.Machine
end

