-- ==== Sys2Proof/Machine/Control.lean ====
section
/-! DEFINITION. BRANCH, BRANCHNEG, BRANCHZERO and HALT (44_control.md R99 to R103), and the meaning of an illegal word
(40_cycle.md R76). -/

namespace Sys2Proof.Machine

/-- A taken branch replaces the fetch's increment; otherwise `pc` keeps it (R103). -/
def branchIf (taken : Bool) (m : Int) (s : State) : Result := .next (if taken then setPc m s else s)

/-- BRANCH (R99). -/
def execBranch (m : Int) (s : State) : Result := branchIf true m s

/-- BRANCHNEG (R100). -/
def execBranchneg (m : Int) (s : State) : Result := branchIf (accNegative s) m s

/-- BRANCHZERO (R101). -/
def execBranchzero (m : Int) (s : State) : Result := branchIf (accZero s) m s

/-- HALT (R102): the normal end of a run; the operand is ignored. -/
def execHalt (_m : Int) (s : State) : Result := .next (enterHalt .halt s)

/-- A word that selects no instruction (R66, R76): the fault UNKNOWN_OPCODE, identified by `IR`, which the fetch has set. -/
def execIllegal (_w : Int) (s : State) : Result := raiseFault .unknownOpcode s

end Sys2Proof.Machine
end

