-- ==== Sys2Proof/Machine/InputOutput.lean ====
section
/-! DEFINITION. READ (its issue and its completion) and WRITE (41_io.md R86 to R88). A meaning runs on the state the fetch
left: `pc` already holds the instruction's address plus 1. -/

namespace Sys2Proof.Machine

/-- READ, the issue (R86): the core then waits for the host's integer. -/
def execRead (m : Int) (s : State) : Result := .next (emit (.inReq m) (setPend (some m) s))

/-- READ, the completion on `InData(v)` (R86, R88): any integer `v` goes to `M[PEND]`. The bounds check of R41 cannot
fire on a waiting READ's address; if it did it would raise OUT_OF_BOUNDS (log entry 8). -/
def completeRead (v : Int) (s : State) : State :=
  match s.pend with
  | none => s
  | some a =>
    match memWrite a v s with
    | some t => setPend none t
    | none => enterHalt .outOfBounds s

/-- WRITE (R87). -/
def execWrite (m : Int) (s : State) : Result := withOperand m s fun v => .next (emit (.out m v) s)

end Sys2Proof.Machine
end

