-- ==== Sys2Proof/Machine/LoadStore.lean ====
section
/-! DEFINITION. LOAD and STORE (42_load_store.md R89 and R90). -/

namespace Sys2Proof.Machine

/-- LOAD (R89). -/
def execLoad (m : Int) (s : State) : Result := withOperand m s fun v => .next (setAcc v s)

/-- STORE (R90). -/
def execStore (m : Int) (s : State) : Result := toOperand m s.acc s

end Sys2Proof.Machine
end

