-- ==== Sys2Proof/Machine/Dispatch.lean ====
section
/-! DEFINITION. The execute dispatch (40_cycle.md R76): one arm per constructor of Instr. -/

namespace Sys2Proof.Machine

/-- The execute phase of `i` on the state its fetch left. -/
def exec (i : Instr) (s : State) : Host.Outcome State Fault Refusal :=
  match i with
  | .read m => Sys2Proof.Machine.execRead m s
  | .write m => Sys2Proof.Machine.execWrite m s
  | .load m => Sys2Proof.Machine.execLoad m s
  | .store m => Sys2Proof.Machine.execStore m s
  | .add m => Sys2Proof.Machine.execAdd m s
  | .subtract m => Sys2Proof.Machine.execSubtract m s
  | .divide m => Sys2Proof.Machine.execDivide m s
  | .multiply m => Sys2Proof.Machine.execMultiply m s
  | .branch m => Sys2Proof.Machine.execBranch m s
  | .branchneg m => Sys2Proof.Machine.execBranchneg m s
  | .branchzero m => Sys2Proof.Machine.execBranchzero m s
  | .halt m => Sys2Proof.Machine.execHalt m s
  | .illegal w => Sys2Proof.Machine.execIllegal w s

end Sys2Proof.Machine
end

