-- ==== Sys2Proof/Machine/Fetch.lean ====
section
/-! DEFINITION. The fetch phase: fetch unit and decoder latches (40_cycle.md R74, 30_encoding.md R61). -/

namespace Sys2Proof.Machine

/-- The four writes of a successful fetch of the word `w` (R74). -/
def latch (w : Int) (s : State) : State :=
  { s with ir := w, opc := opcodeOf w, opd := operandOf w, pc := s.pc + 1 }

/-- The fetch phase (R74); no state when `pc` is outside memory, which is the fault of R75. -/
def fetch (s : State) : Option State := (memRead s.pc s).map fun w => latch w s

end Sys2Proof.Machine
end

