-- ==== Sys2Proof/Machine/HostPort.lean ====
section
/-! DEFINITION. The host's moves: which are admitted (10_state.md R36) and what each does (20_memory.md R47 to R50, 40_cycle.md
R83, 41_io.md R86, 60_exceptions.md R119, 70_reset_and_hazards.md R125). -/

namespace Sys2Proof.Machine

/-- R36's table. -/
def admitted (e : HostEvent) (s : State) : Bool :=
  match e with
  | .reset => true
  | .load _ => decide (s.rs = .ready)
  | .loadAbort => decide (s.rs = .ready)
  | .run => true
  | .inData _ => decide (s.rs = .running) && s.pend.isSome
  | .dumpReq => decide (s.rs = .ready) || decide (s.rs = .halted)

/-- A load that is rejected or aborted (R48, R49): all memory 0, registers unchanged. -/
def rejectLoad (s : State) : State := emit (.loadAck .loadError) { s with mem := Memory.zeroed }

/-- `Load(ws)` (R47, R48). -/
def loadProgram (ws : List Int) (s : State) : State :=
  if ws.length ≤ 100 then emit (.loadAck .ok) { s with mem := s.mem.writeFrom 0 ws } else rejectLoad s

/-- `Run` (R83): `Ready` to `Running`, no effect in `Running` or `Halted`. -/
def runCommand (s : State) : State :=
  match s.rs with
  | .ready => { s with rs := .running }
  | .running => s
  | .halted => s

/-- What a dump shows (R119). -/
def snapshot (s : State) : Snapshot :=
  { acc := s.acc, pc := s.pc, ir := s.ir, opc := s.opc, opd := s.opd, rs := s.rs, hc := s.hc,
    words := allWords s }

/-- `DumpReq` (R119): the dump changes no state but the history. -/
def dumpState (s : State) : State := emit (.dump (snapshot s)) s

/-- The effect of a host event. -/
def hostEffect (e : HostEvent) (s : State) : State :=
  match e with
  | .reset => resetMachine s
  | .load ws => loadProgram ws s
  | .loadAbort => rejectLoad s
  | .run => runCommand s
  | .inData v => completeRead v s
  | .dumpReq => dumpState s

/-- A host move: the event is recorded as it occurs, before the events it causes (R35; log entry 7). -/
def hostMove (e : HostEvent) (s : State) : State := hostEffect e (emit e.toEvent s)

end Sys2Proof.Machine
end

