-- ==== Sys2Proof/Machine/Cycle.lean ====
section
/-! DEFINITION. The instruction step (40_cycle.md R73 to R76, R78), and the turns of the two agents (00_scope.md R18). -/

namespace Sys2Proof.Machine

/-- One fetch, then one execute (R73). -/
def fetchExecute (s : State) : Result :=
  match fetch s with
  | none => raiseFault .outOfBounds s
  | some t => exec (decode t.ir) t

/-- The core's turn: it has a step exactly when `RS = Running` and `PEND = none` (R73). -/
def coreStep (s : State) : Result :=
  match s.rs with
  | .ready => .fault .notStarted
  | .halted => .fault .runEnded
  | .running =>
    match s.pend with
    | some _ => .fault .awaitingInput
    | none => fetchExecute s

/-- The next turn of the script (log entry 2). A host event is taken when it is admitted (R36); until then the host has no
move and the core goes on. With nothing in the script, the turn is the core's. -/
def takeTurn (s : State) : Result :=
  match s.script with
  | [] => coreStep s
  | .core :: rest => coreStep { s with script := rest }
  | .host e :: rest => if admitted e s then .next (hostMove e { s with script := rest }) else coreStep s

/-- `s` with the word `w` where the next fetch reads, ready to run it: `RS = Running`, no READ waiting, the next turn the
core's; `pc` stays where it addresses memory and is 0 where it does not (log entry 5). -/
def placeFetchWord (s : State) (w : Int) : State :=
  let a : Int := if inBounds s.pc then s.pc else 0
  { setWord a w s with pc := a, rs := .running, pend := none, script := .core :: s.script }

end Sys2Proof.Machine
end

