-- ==== Sys2Proof/Machine/Step.lean ====
section
/-! DEFINITION. One step of the machine, and the state in which a given word is the next to run. -/

namespace Sys2Proof.Machine

/-- One step: one turn of the core or of the host (R18, R73). -/
def step (s : State) : Host.Outcome State Fault Refusal := takeTurn s

/-- `s` with the table's word `w` stored where `step` fetches next, and all set so that the next step runs it (log
entry 5). A word of this hardware is an integer and has no bits: `w` is its value (log entry 6). -/
def State.withFetchWord (s : State) (_nbits w : Nat) : State := placeFetchWord s (Int.ofNat w)

end Sys2Proof.Machine
end

