-- ==== Sys2Proof/Machine/Realisation.lean ====
section
/-! DEFINITION. A finite realisation (00_scope.md R8 `REALISATION_BOUND`, 92_eei_decisions.md D2): it runs like the architecture as
long as every value it stores stays within its bound, and stops by name beyond it. The architectural `step` is unbounded and calls
nothing of this file. -/

namespace Sys2Proof.Machine

/-- The integers a realisation stores: `ACC`, `pc`, `IR`, `OPC`, `OPD`, the address in `PEND` where there is one, and
`M[0]` to `M[99]` (R38). -/
def storedValues (s : State) : List Int :=
  [s.acc, s.pc, s.ir, s.opc, s.opd] ++ s.pend.toList ++ allWords s

/-- Every stored integer has magnitude at most `bound`. -/
def withinBound (bound : Nat) (s : State) : Bool :=
  (storedValues s).all fun v => decide (v.natAbs ≤ bound)

/-- The step of a realisation whose storage holds magnitudes up to `bound`: it faults, it does not wrap (D2). -/
def finiteStep (bound : Nat) (s : State) : Result :=
  match step s with
  | .next t => if withinBound bound t then .next t else .fault .beyondRealisation
  | .fault r => .fault r
  | .refused r => .refused r

/-- The step of this hardware's realisation, at its open bound. -/
def realisedStep (s : State) : Result := finiteStep Config.realisationBound s

end Sys2Proof.Machine
end

