-- ==== Sys2Proof/Safety.lean ====
section
/-! DEFINITION. The terms claims are stated in: when the core has a step, what every legal state satisfies, what a step leaves
alone, and the spec's own summary of a step as one function (40_cycle.md R78). -/

namespace Sys2Proof.Machine

/-- An address of memory, in the spec's own words: `a ∈ [0, 99]` (20_memory.md R41). -/
abbrev InMem (a : Int) : Prop := 0 ≤ a ∧ a ≤ 99

/-- The core has a step (40_cycle.md R73). -/
abbrev State.CoreEnabled (s : State) : Prop := s.rs = .running ∧ s.pend = none

/-- The next turn is the core's: nothing in the script, a turn of the core, or a host event that R36 does not admit now. -/
def State.coreTurn (s : State) : Bool :=
  match s.script with
  | [] => true
  | .core :: _ => true
  | .host e :: _ => !admitted e s

/-- The next turn is the core's, as a proposition. -/
abbrev State.CoreTurn (s : State) : Prop := s.coreTurn = true

/-- The script after a turn of the core: its `core` entry is consumed; a host event not yet admitted stays offered. -/
def State.restScript (s : State) : List Turn :=
  match s.script with
  | [] => []
  | .core :: rest => rest
  | .host e :: rest => .host e :: rest

/-- `s` with the core's turn taken from the script. -/
def State.turnTaken (s : State) : State := { s with script := s.restScript }

/-- A READ waits for its input (60_exceptions.md R115, the state `W`). -/
abbrev State.Waiting (s : State) : Prop := s.rs = .running ∧ s.pend ≠ none

/-- The run has ended (40_cycle.md R84); the spec's halted flag (10_state.md R29). -/
abbrev State.Ended (s : State) : Prop := s.rs = .halted

/-- What every state of the hardware satisfies: the ranges of 10_state.md R24, R25 and R31, the decoder's law R61 on the latches,
`HC` set exactly in `Halted` (R30), and memory in its canonical form. -/
structure State.Inv (s : State) : Prop where
  memCanonical : s.mem.wf = true
  pcRange : 0 ≤ s.pc ∧ s.pc ≤ 100
  latchLaw : s.ir = 100 * s.opc + s.opd
  opdRange : InMem s.opd
  pendLaw : ∀ a, s.pend = some a → InMem a ∧ s.rs = .running
  causeLaw : s.hc ≠ .none ↔ s.rs = .halted

/-- How many `Status` events the history holds since its last `Reset`. -/
def statusesSinceReset (h : List Event) : Nat :=
  h.foldl (fun n e =>
    match e with
    | .reset => 0
    | .status _ => n + 1
    | .load _ | .loadAbort | .loadAck _ | .run | .inReq _ | .inData _ | .out _ _ | .dumpReq | .dump _ => n) 0

/-- One `Status` per run that has ended, none before it ends (95_test_vectors.md section 2.7). -/
def State.OneStatusPerRun (s : State) : Prop :=
  (s.rs = .halted → statusesSinceReset s.hist = 1) ∧ (s.rs ≠ .halted → statusesSinceReset s.hist = 0)

/-- Every memory word reads as before. -/
def SameWords (s t : State) : Prop := ∀ a, InMem a → t.word a = s.word a

/-- Every memory word but `M[m]` reads as before. -/
def SameWordsBut (m : Int) (s t : State) : Prop := ∀ a, InMem a → a ≠ m → t.word a = s.word a

/-- The fetch latches `IR`, `OPC`, `OPD` are as before. -/
def SameLatches (s t : State) : Prop := t.ir = s.ir ∧ t.opc = s.opc ∧ t.opd = s.opd

/-- The whole state tuple of 10_state.md R38 is as before (the history and the script stand beside it). -/
def SameTuple (s t : State) : Prop :=
  t.acc = s.acc ∧ t.pc = s.pc ∧ SameLatches s t ∧ SameWords s t ∧ t.rs = s.rs ∧ t.hc = s.hc ∧ t.pend = s.pend

/-- `s` after the halt entry with cause `c`, written out (60_exceptions.md R106). -/
def haltedWith (c : HaltCause) (s : State) : State :=
  { s with rs := .halted, hc := c, hist := s.hist ++ [.status c] }

/-- `s` after a successful fetch by the core's turn, written out (40_cycle.md R74). -/
def fetched (s : State) : State :=
  { s with ir := s.word s.pc, opc := fdiv (s.word s.pc) 100, opd := fmod (s.word s.pc) 100, pc := s.pc + 1,
           script := s.restScript }

/-- `q` is the quotient of `a` by `d ≠ 0` rounded toward negative infinity, said without division: `q ≤ a/d < q + 1`
(43_arithmetic.md R96). -/
def IsFloorQuotient (a d q : Int) : Prop :=
  (0 < d → d * q ≤ a ∧ a < d * (q + 1)) ∧ (d < 0 → a ≤ d * q ∧ d * (q + 1) < a)

/-- R78's `case OPC of`, in one piece on the operation code, for a state whose fetch is done; `OPD` is the operand `m`. -/
def wholeExecute (t : State) : State :=
  if t.opc = 10 then { t with pend := some t.opd, hist := t.hist ++ [.inReq t.opd] }
  else if t.opc = 11 then { t with hist := t.hist ++ [.out t.opd (t.word t.opd)] }
  else if t.opc = 20 then { t with acc := t.word t.opd }
  else if t.opc = 21 then setWord t.opd t.acc t
  else if t.opc = 30 then { t with acc := t.acc + t.word t.opd }
  else if t.opc = 31 then { t with acc := t.acc - t.word t.opd }
  else if t.opc = 32 then
    (if t.word t.opd = 0 then haltedWith .divideByZero t else { t with acc := fdiv t.acc (t.word t.opd) })
  else if t.opc = 33 then { t with acc := t.acc * t.word t.opd }
  else if t.opc = 40 then { t with pc := t.opd }
  else if t.opc = 41 then (if t.acc < 0 then { t with pc := t.opd } else t)
  else if t.opc = 42 then (if t.acc = 0 then { t with pc := t.opd } else t)
  else if t.opc = 43 then haltedWith .halt t
  else haltedWith .unknownOpcode t

/-- R78's `step()`: what the composition of fetch, decoder, dispatch and meanings must equal. -/
def wholeStep (s : State) : State :=
  if s.pc < 0 ∨ 99 < s.pc then haltedWith .outOfBounds s.turnTaken else wholeExecute (fetched s)

end Sys2Proof.Machine
end

