-- ==== Sys2Proof/Certificates/Slice0/Obligations.lean ====
section
/-! DEFINITION. The statements about the machine, each formalising the rules of spec/ that its docstring names. An instruction's
statement speaks of `exec` on the state its fetch left; the statements about `step` say how the two compose. Every statement about `step` says
whose move it is through the field `script`, which is the MODEL's own (log entry 2, DESIGN CHOICE): `CoreTurn` is the core's turn, and a
script that begins with `.host e` is the host offering the event `e`. No statement rests on the script's value at reset. -/

open Sys2Proof Sys2Proof.Machine

/-! ## Decoding -/

/-- Words written out from R65's table, one per instruction, and words R63, R64 and R66 call illegal. -/
def Obligations.SpecWordsDecode : Prop :=
  decode 1007 = .read 7 ∧ decode 1109 = .write 9 ∧ decode 2005 = .load 5 ∧ decode 2109 = .store 9 ∧
  decode 3008 = .add 8 ∧ decode 3122 = .subtract 22 ∧ decode 3206 = .divide 6 ∧ decode 3320 = .multiply 20 ∧
  decode 4099 = .branch 99 ∧ decode 4102 = .branchneg 2 ∧ decode 4210 = .branchzero 10 ∧ decode 4377 = .halt 77 ∧
  decode 0 = .illegal 0 ∧ decode 14300 = .illegal 14300 ∧ decode (-4301) = .illegal (-4301)

/-- Decode and encode agree, for every instruction and every operand its encoding admits (R59, R65, R67). -/
def Obligations.DecodeOfEncodeIsIdentity : Prop :=
  ∀ i : Instr, i.WellFormed → decode (encode i) = i

/-- Every word is the encoding of what it decodes to: no word is lost or shared (R61, R69). -/
def Obligations.EncodeOfDecodeIsIdentity : Prop :=
  ∀ w : Int, encode (decode w) = w

/-- The decoder answers only well-formed instructions: every operand it yields is an address (R61, R67). -/
def Obligations.DecodeAnswersWellFormed : Prop :=
  ∀ w : Int, (decode w).WellFormed

/-- R65: a word selects an instruction exactly when its operation code is that instruction's, and the operand takes each of its
100 values; R66: every other operation code is illegal. The operation code and operand are given by `w = 100·q + m`. -/
def Obligations.OpcodeSelectsInstruction : Prop :=
  ∀ w q m : Int, w = 100 * q + m → InMem m →
    (decode w = .read m ↔ q = 10) ∧ (decode w = .write m ↔ q = 11) ∧
    (decode w = .load m ↔ q = 20) ∧ (decode w = .store m ↔ q = 21) ∧
    (decode w = .add m ↔ q = 30) ∧ (decode w = .subtract m ↔ q = 31) ∧
    (decode w = .divide m ↔ q = 32) ∧ (decode w = .multiply m ↔ q = 33) ∧
    (decode w = .branch m ↔ q = 40) ∧ (decode w = .branchneg m ↔ q = 41) ∧
    (decode w = .branchzero m ↔ q = 42) ∧ (decode w = .halt m ↔ q = 43) ∧
    (decode w = .illegal w ↔ q ∉ [10, 11, 20, 21, 30, 31, 32, 33, 40, 41, 42, 43])

/-- R72: the legal words are 1000 to 1199, 2000 to 2199, 3000 to 3399 and 4000 to 4399, and no others. -/
def Obligations.LegalWordsAreTheFourRanges : Prop :=
  ∀ w : Int, (∃ v, decode w = .illegal v) ↔
    ¬ ((1000 ≤ w ∧ w ≤ 1199) ∨ (2000 ≤ w ∧ w ≤ 2199) ∨ (3000 ≤ w ∧ w ≤ 3399) ∨ (4000 ≤ w ∧ w ≤ 4399))

/-! ## The instruction step -/

/-- R74 and R61: a successful fetch writes `IR`, `OPC`, `OPD` and `pc` and nothing else; the fields are the ones with
`IR = 100·OPC + OPD` and `OPD` in [0, 99]. -/
def Obligations.FetchLatchesFourRegisters : Prop :=
  ∀ s : State, InMem s.pc → ∃ q m : Int, s.word s.pc = 100 * q + m ∧ InMem m ∧
    fetch s = some { s with ir := s.word s.pc, opc := q, opd := m, pc := s.pc + 1 }

/-- A step at the core's turn is `exec` of the decoded word at `pc`, on the state the fetch leaves (R73, R74, R76). -/
def Obligations.StepRunsDecodedInstruction : Prop :=
  ∀ s : State, s.CoreTurn → s.CoreEnabled → InMem s.pc →
    step s = exec (decode (s.word s.pc))
      { s with ir := s.word s.pc, opc := fdiv (s.word s.pc) 100, opd := fmod (s.word s.pc) 100, pc := s.pc + 1,
               script := s.restScript }

/-- R75: with `pc` outside memory the core halts with OUT_OF_BOUNDS and no register or word changes. -/
def Obligations.FetchOutsideMemoryHalts : Prop :=
  ∀ s : State, s.CoreTurn → s.CoreEnabled → ¬ InMem s.pc →
    step s = .next { s with rs := .halted, hc := .outOfBounds, hist := s.hist ++ [.status .outOfBounds],
                            script := s.restScript }

/-- R73: the core has a step exactly when `RS = Running` and `PEND = none`; elsewhere its turn is stuck. -/
def Obligations.CoreStepsExactlyWhenEnabled : Prop :=
  ∀ s : State, s.CoreTurn →
    ((∃ t, step s = .next t) ↔ s.rs = .running ∧ s.pend = none) ∧
    (s.rs = .ready → step s = .fault .notStarted) ∧ (s.rs = .halted → step s = .fault .runEnded) ∧
    (s.rs = .running → s.pend ≠ none → step s = .fault .awaitingInput)

/-- R78: the core's step is the spec's `step()` in one piece, whatever word it fetches. -/
def Obligations.StepIsWholeStep : Prop :=
  ∀ s : State, s.CoreTurn → s.CoreEnabled → step s = .next (wholeStep s)

/-- R77: the instruction counter law. A word `100·q + m` at `pc` leaves `pc = m` if it is BRANCH or a taken BRANCHNEG or BRANCHZERO,
else `pc + 1`; a READ's completion and a fetch fault leave `pc` alone. -/
def Obligations.InstructionCounterLaw : Prop :=
  (∀ s q m, s.CoreTurn → s.CoreEnabled → InMem s.pc → s.word s.pc = 100 * q + m → InMem m →
    ∃ t, step s = .next t ∧
      t.pc = if q = 40 ∨ (q = 41 ∧ s.acc < 0) ∨ (q = 42 ∧ s.acc = 0) then m else s.pc + 1) ∧
  (∀ s v rest, s.Waiting → s.script = .host (.inData v) :: rest → ∃ t, step s = .next t ∧ t.pc = s.pc) ∧
  (∀ s, s.CoreTurn → s.CoreEnabled → ¬ InMem s.pc → ∃ t, step s = .next t ∧ t.pc = s.pc)

/-- Every word has a meaning: no step is refused, and every core step that is due completes (R66, R69, R84). -/
def Obligations.NoStepIsRefused : Prop :=
  ∀ s : State, (∀ r, step s ≠ .refused r) ∧ (s.CoreTurn → s.CoreEnabled → ∃ t, step s = .next t)

/-! ## Input and output -/

/-- R86, the issue: READ sets `PEND` and prompts, and changes nothing else; the core then has no step. -/
def Obligations.ReadIssuesAndWaits : Prop :=
  ∀ s m,
    exec (.read m) s = .next { s with pend := some m, hist := s.hist ++ [.inReq m] } ∧
    (s.rs = .running → ({ s with pend := some m, hist := s.hist ++ [.inReq m] } : State).CoreTurn →
      step { s with pend := some m, hist := s.hist ++ [.inReq m] } = .fault .awaitingInput)

/-- R86 and R88, the completion: `InData(v)`, any integer `v`, goes to `M[PEND]` and `PEND` is cleared; every other word and register
stays. The history records the event (R35). -/
def Obligations.InputCompletesRead : Prop :=
  ∀ s a v rest, s.rs = .running → s.pend = some a → InMem a → s.mem.wf = true → s.script = .host (.inData v) :: rest →
    ∃ t, step s = .next t ∧ t.word a = v ∧ SameWordsBut a s t ∧ t.pend = none ∧ t.acc = s.acc ∧ t.pc = s.pc ∧
      SameLatches s t ∧ t.rs = .running ∧ t.hc = s.hc ∧ t.hist = s.hist ++ [.inData v]

/-- R87: WRITE emits the address and the word, and changes no register and no word. -/
def Obligations.WriteEmitsWord : Prop :=
  ∀ s m, InMem m → exec (.write m) s = .next { s with hist := s.hist ++ [.out m (s.word m)] }

/-! ## Load and store -/

/-- R89: LOAD copies the word to `ACC` exactly, and changes nothing else. -/
def Obligations.LoadCopiesWord : Prop :=
  ∀ s m, InMem m → exec (.load m) s = .next { s with acc := s.word m }

/-- R90: STORE puts `ACC` in `M[m]` exactly; every other word, every register and the history stay. -/
def Obligations.StoreWritesOneWord : Prop :=
  ∀ s m, InMem m → s.mem.wf = true →
    ∃ t, exec (.store m) s = .next t ∧ t.word m = s.acc ∧ SameWordsBut m s t ∧
      t.acc = s.acc ∧ t.pc = s.pc ∧ SameLatches s t ∧ t.rs = s.rs ∧ t.hc = s.hc ∧ t.pend = s.pend ∧
      t.hist = s.hist ∧ t.script = s.script

/-- R56: a word stored by a step is what the next fetch of that address reads, and the storing instruction itself stays in `IR`. -/
def Obligations.StoreIsSeenByNextFetch : Prop :=
  ∀ s m, s.CoreTurn → s.CoreEnabled → InMem s.pc → InMem m → s.mem.wf = true → s.word s.pc = 2100 + m →
    ∃ t, step s = .next t ∧ t.ir = 2100 + m ∧ t.word m = s.acc ∧ SameWordsBut m s t ∧
      (t.pc = m → ∃ u, fetch t = some u ∧ u.ir = s.acc)

/-! ## Arithmetic -/

/-- R91, R92, R94: ADD, SUBTRACT and MULTIPLY are exact on the integers, the accumulator the left operand; nothing else changes. -/
def Obligations.ArithmeticIsExact : Prop :=
  ∀ s m, InMem m →
    exec (.add m) s = .next { s with acc := s.acc + s.word m } ∧
    exec (.subtract m) s = .next { s with acc := s.acc - s.word m } ∧
    exec (.multiply m) s = .next { s with acc := s.acc * s.word m }

/-- R93 and R96: with a divisor not 0, the one integer `q` with `q ≤ ACC/d < q + 1` goes to `ACC` and nothing else changes; with
divisor 0, DIVIDE halts with DIVIDE_BY_ZERO and touches neither `ACC`, memory nor the fetch's registers. -/
def Obligations.DivideFloorsOrHalts : Prop :=
  ∀ s m, InMem m →
    (s.word m ≠ 0 →
      ∃ q, IsFloorQuotient s.acc (s.word m) q ∧ (∀ q', IsFloorQuotient s.acc (s.word m) q' → q' = q) ∧
        exec (.divide m) s = .next { s with acc := q }) ∧
    (s.word m = 0 →
      exec (.divide m) s =
        .next { s with rs := .halted, hc := .divideByZero, hist := s.hist ++ [.status .divideByZero] })

/-! ## Control -/

/-- R99 to R101: the branches write `pc` alone, when their condition on `ACC` holds. -/
def Obligations.BranchesSetCounter : Prop :=
  ∀ s m,
    exec (.branch m) s = .next { s with pc := m } ∧
    exec (.branchneg m) s = .next { s with pc := if s.acc < 0 then m else s.pc } ∧
    exec (.branchzero m) s = .next { s with pc := if s.acc = 0 then m else s.pc }

/-- R102: HALT halts with cause HALT, whatever its operand, and changes nothing else. -/
def Obligations.HaltEndsRun : Prop :=
  ∀ s m,
    exec (.halt m) s = .next { s with rs := .halted, hc := .halt, hist := s.hist ++ [.status .halt] }

/-- R76: an illegal word halts with UNKNOWN_OPCODE and writes nothing else. -/
def Obligations.IllegalWordHalts : Prop :=
  ∀ s w, (Instr.illegal w).WellFormed →
    exec (.illegal w) s =
      .next { s with rs := .halted, hc := .unknownOpcode, hist := s.hist ++ [.status .unknownOpcode] }

/-- R41: an operand access outside memory, which no decoded word makes, raises OUT_OF_BOUNDS and does not access memory. -/
def Obligations.OperandOutsideMemoryHalts : Prop :=
  ∀ s m, ¬ InMem m → ∀ i ∈ [Instr.write m, .load m, .store m, .add m, .subtract m, .divide m, .multiply m],
    exec i s = .next { s with rs := .halted, hc := .outOfBounds, hist := s.hist ++ [.status .outOfBounds] }

/-! ## Faults, run control and the host's moves -/

/-- R108: every fault is precise. A core step that ends in `Halted` has changed neither `ACC`, memory nor `PEND`; the latches and `pc` are the
fetch's, or untouched if the fetch itself failed. -/
def Obligations.FaultsArePrecise : Prop :=
  ∀ s, s.CoreTurn → s.CoreEnabled → ∀ t, step s = .next t → t.rs = .halted →
    t.acc = s.acc ∧ SameWords s t ∧ t.pend = s.pend ∧ t.hist = s.hist ++ [.status t.hc] ∧
    (InMem s.pc → t.ir = s.word s.pc ∧ t.ir = 100 * t.opc + t.opd ∧ InMem t.opd ∧ t.pc = s.pc + 1) ∧
    (¬ InMem s.pc → SameLatches s t ∧ t.pc = s.pc)

/-- R105 and R109: which cause a core step halts with, for a word `100·q + m` at `pc`; with none of them the run goes on. -/
def Obligations.HaltCauseOfStep : Prop :=
  ∀ s, s.CoreTurn → s.CoreEnabled →
    (¬ InMem s.pc → ∃ t, step s = .next t ∧ t.rs = .halted ∧ t.hc = .outOfBounds) ∧
    (∀ q m, InMem s.pc → s.word s.pc = 100 * q + m → InMem m → ∃ t, step s = .next t ∧
      (q = 43 → t.rs = .halted ∧ t.hc = .halt) ∧
      (q ∉ [10, 11, 20, 21, 30, 31, 32, 33, 40, 41, 42, 43] → t.rs = .halted ∧ t.hc = .unknownOpcode) ∧
      (q = 32 → s.word m = 0 → t.rs = .halted ∧ t.hc = .divideByZero) ∧
      (q ∈ [10, 11, 20, 21, 30, 31, 32, 33, 40, 41, 42] → ¬ (q = 32 ∧ s.word m = 0) → t.rs = .running ∧ t.hc = s.hc))

/-- R81: `RS` moves only from Ready to Running on `Run`, from Running to Halted on the halt entry, and to Ready on `Reset`. -/
def Obligations.RunStateMovesOnlyAsListed : Prop :=
  ∀ s t, step s = .next t → t.rs ≠ s.rs →
    (s.rs = .ready ∧ t.rs = .running ∧ s.script.head? = some (.host .run)) ∨
    (s.rs = .running ∧ t.rs = .halted ∧ t.hc ≠ .none ∧ t.hist.getLast? = some (.status t.hc)) ∨
    (t.rs = .ready ∧ s.script.head? = some (.host .reset))

/-- R30: `HC` is written only by the halt entry, which leaves the core in `Halted`, and by `Reset`, which clears it. -/
def Obligations.HaltCauseWrittenOnlyByHaltOrReset : Prop :=
  ∀ s t, step s = .next t → t.hc ≠ s.hc →
    (s.rs = .running ∧ t.rs = .halted ∧ t.hc ≠ .none ∧ t.hist.getLast? = some (.status t.hc)) ∨
    (t.hc = .none ∧ s.script.head? = some (.host .reset))

/-- R21: `ACC` is written only by LOAD, ADD, SUBTRACT, MULTIPLY, and DIVIDE by a divisor not 0; and by `Reset`. -/
def Obligations.AccWrittenOnlyByItsInstructions : Prop :=
  ∀ s t, step s = .next t → t.acc ≠ s.acc →
    s.script.head? = some (.host .reset) ∨
    (s.CoreEnabled ∧ ∃ m, InMem m ∧
      (decode (s.word s.pc) = .load m ∨ decode (s.word s.pc) = .add m ∨ decode (s.word s.pc) = .subtract m ∨
       decode (s.word s.pc) = .multiply m ∨ (decode (s.word s.pc) = .divide m ∧ s.word m ≠ 0)))

/-- R32: a word of memory is written only by STORE to its address, by the completion of the READ that waits for it, by a load or
an aborted load in `Ready`, and by `Reset`. -/
def Obligations.WordWrittenOnlyByItsWriters : Prop :=
  ∀ s t a, InMem a → step s = .next t → t.word a ≠ s.word a →
    (s.CoreEnabled ∧ decode (s.word s.pc) = .store a) ∨
    (s.Waiting ∧ s.pend = some a ∧ ∃ v, s.script.head? = some (.host (.inData v))) ∨
    (s.rs = .ready ∧ ∃ ws, s.script.head? = some (.host (.load ws))) ∨
    (s.rs = .ready ∧ s.script.head? = some (.host .loadAbort)) ∨
    s.script.head? = some (.host .reset)

/-- R122: the READ wait is left only by `InData` or `Reset`, and all state survives it unchanged. -/
def Obligations.WaitKeepsState : Prop :=
  ∀ s t, s.Waiting → step s = .next t → s.script.head? ≠ some (.host .reset) →
    (∀ v, s.script.head? ≠ some (.host (.inData v))) → SameTuple s t

/-- R80 and R112: once halted, no number of steps changes the state tuple, as long as the host does not reset. -/
def Obligations.HaltedStaysHalted : Prop :=
  ∀ (k : Nat) (s t : State), s.rs = .halted → Turn.host .reset ∉ s.script →
    Host.Core.run Sys2Proof.core k s = .next t → SameTuple s t ∧ t.rs = .halted

/-- R36: the admission table. A host event at the head of the script is taken, and recorded, exactly in the states the table lists; elsewhere it
stays offered, and a step is the core's. That a taken event leaves the script is the model's choice (log entry 2), and that a `Run` without
effect is recorded too is the model's reading of R35 (log entry 7). -/
def Obligations.HostMoveTakenExactlyWhenAdmitted : Prop :=
  ∀ s e rest, s.script = .host e :: rest →
    ((e = .reset ∨ e = .run ∨ ((∃ ws, e = .load ws) ∧ s.rs = .ready) ∨ (e = .loadAbort ∧ s.rs = .ready) ∨
        ((∃ v, e = .inData v) ∧ s.rs = .running ∧ s.pend ≠ none) ∨ (e = .dumpReq ∧ (s.rs = .ready ∨ s.rs = .halted))) →
      ∃ t, step s = .next t ∧ t.script = rest ∧ t.hist[s.hist.length]? = some e.toEvent) ∧
    (((∃ ws, e = .load ws) ∧ s.rs ≠ .ready ∨ e = .loadAbort ∧ s.rs ≠ .ready ∨
        (∃ v, e = .inData v) ∧ ¬ (s.rs = .running ∧ s.pend ≠ none) ∨ e = .dumpReq ∧ s.rs = .running) →
      step s = coreStep s ∧ ∀ t, step s = .next t → t.script = s.script)

/-- R47: a load of up to 100 words writes its words from address 0, leaves the other words and every register alone, and is
acknowledged OK. -/
def Obligations.LoadWritesItsWords : Prop :=
  ∀ s ws rest, s.rs = .ready → ws.length ≤ 100 → s.mem.wf = true → s.script = .host (.load ws) :: rest →
    ∃ t, step s = .next t ∧ (∀ (i : Nat) v, ws[i]? = some v → t.word i = v) ∧
      (∀ a, InMem a → (ws.length : Int) ≤ a → t.word a = s.word a) ∧
      t.acc = s.acc ∧ t.pc = s.pc ∧ SameLatches s t ∧ t.rs = .ready ∧ t.hc = s.hc ∧ t.pend = s.pend ∧
      t.hist = s.hist ++ [.load ws, .loadAck .ok]

/-- R48 and R49: an oversize load and an aborted load leave all memory 0 and every register alone, and are acknowledged LOAD_ERROR. -/
def Obligations.RejectedLoadZeroesMemory : Prop :=
  ∀ s e rest, s.rs = .ready → ((∃ ws, e = .load ws ∧ 100 < ws.length) ∨ e = .loadAbort) → s.script = .host e :: rest →
    ∃ t, step s = .next t ∧ (∀ a, InMem a → t.word a = 0) ∧
      t.acc = s.acc ∧ t.pc = s.pc ∧ SameLatches s t ∧ t.rs = .ready ∧ t.hc = s.hc ∧ t.pend = s.pend ∧
      t.hist = s.hist ++ [e.toEvent, .loadAck .loadError]

/-- R51: loading `P` (length at most 100) into a reset core and dumping at once reproduces `P`, zeros elsewhere. -/
def Obligations.LoadThenDumpReproducesProgram : Prop :=
  ∀ P : List Int, P.length ≤ 100 →
    ∃ t d, Host.Core.run Sys2Proof.core 2 { State.reset with script := [.host (.load P), .host .dumpReq] } = .next t ∧
      t.hist.getLast? = some (.dump d) ∧ d.words = P ++ List.replicate (100 - P.length) 0

/-- R83: `Run` takes `Ready` to `Running` and has no effect in `Running` or `Halted`. -/
def Obligations.RunStartsOnlyFromReady : Prop :=
  ∀ s rest, s.script = .host .run :: rest → ∃ t, step s = .next t ∧
    (s.rs = .ready → t.rs = .running ∧ SameTuple { s with rs := .running } t) ∧
    (s.rs = .running → SameTuple s t) ∧ (s.rs = .halted → SameTuple s t)

/-- R125: `Reset`, in every state, leaves every piece of state at its reset value and adds itself to the history. -/
def Obligations.ResetEventRestoresResetState : Prop :=
  ∀ s rest, s.script = .host .reset :: rest → ∃ t, step s = .next t ∧
    t.acc = 0 ∧ t.pc = 0 ∧ t.ir = 0 ∧ t.opc = 0 ∧ t.opd = 0 ∧ (∀ a, InMem a → t.word a = 0) ∧
    t.rs = .ready ∧ t.hc = .none ∧ t.pend = none ∧ t.hist = s.hist ++ [.reset]

/-- R119: the dump shows every register and `M[0]` to `M[99]`, and changes no state. -/
def Obligations.DumpShowsStateUnchanged : Prop :=
  ∀ s rest, s.rs ≠ .running → s.script = .host .dumpReq :: rest → ∃ t d, step s = .next t ∧ SameTuple s t ∧
    t.hist = s.hist ++ [.dumpReq, .dump d] ∧ d.acc = s.acc ∧ d.pc = s.pc ∧ d.ir = s.ir ∧ d.opc = s.opc ∧ d.opd = s.opd ∧
    d.rs = s.rs ∧ d.hc = s.hc ∧ d.words.length = 100 ∧ ∀ i : Nat, i < 100 → d.words[i]? = some (s.word i)

/-- R35 and R125: the history only grows; earlier events stay. -/
def Obligations.HistoryOnlyGrows : Prop :=
  ∀ s t, step s = .next t → ∃ es, t.hist = s.hist ++ es

/-- The canonical form makes equal memories equal data: two canonical memories that read alike are the same list (model's representation,
log entry 1; R27, R42). -/
def Obligations.CanonicalMemoriesThatReadAlikeAreEqual : Prop :=
  ∀ s t : State, s.mem.wf = true → t.mem.wf = true → SameWords s t → s.mem = t.mem

/-- 92_eei_decisions.md D2: a realisation that holds magnitudes up to `bound` takes exactly the architecture's steps after which every
register, the pending address and every memory word is within the bound; every other next state of the architecture makes it fault, never
wrap; and where the architecture is stuck so is it. At the core's turn the architecture's next state is R78's, so the realisation answers
that state or the fault, and nothing else. Which values are compared, and when, is the model's choice (log entry 9). -/
def Obligations.FiniteRealisationAgreesWithinBound : Prop :=
  ∀ (bound : Nat) (s : State),
    (∀ t : State, finiteStep bound s = .next t ↔ step s = .next t ∧
      |t.acc| ≤ (bound : Int) ∧ |t.pc| ≤ (bound : Int) ∧ |t.ir| ≤ (bound : Int) ∧ |t.opc| ≤ (bound : Int) ∧
      |t.opd| ≤ (bound : Int) ∧ (∀ a, t.pend = some a → |a| ≤ (bound : Int)) ∧
      ∀ a, InMem a → |t.word a| ≤ (bound : Int)) ∧
    (∀ t : State, step s = .next t → finiteStep bound s ≠ .next t → finiteStep bound s = .fault .beyondRealisation) ∧
    (∀ r, step s = .fault r → finiteStep bound s = .fault r) ∧
    (s.CoreTurn → s.CoreEnabled →
      finiteStep bound s = .next (wholeStep s) ∨ finiteStep bound s = .fault .beyondRealisation)

/-! ## Invariants -/

/-- R37: the reset state satisfies the invariants below. -/
def Obligations.ResetMeetsInvariants : Prop :=
  State.reset.Inv ∧ State.reset.OneStatusPerRun

/-- Every step keeps the ranges of `pc`, `OPD` and `PEND`, the decoder's law on the latches, `HC` set exactly in `Halted`, and memory in
canonical form (R24, R25, R30, R31, R61). -/
def Obligations.StepKeepsInvariant : Prop :=
  ∀ s t, s.Inv → step s = .next t → t.Inv

/-- Every step keeps: one `Status` since the last `Reset` if the run has ended, none before (95_test_vectors.md section 2.7). -/
def Obligations.StepKeepsOneStatusPerRun : Prop :=
  ∀ s t, s.OneStatusPerRun → step s = .next t → t.OneStatusPerRun
end

