-- ==== Sys2Proof/Laws/Floor.lean ====
section
/-! SUPPORT. Floored division and the split of a word (00_scope.md R10, 30_encoding.md R61). -/

namespace Sys2Proof

theorem fdiv_bounds_of_pos (a : Int) {d : Int} (h : 0 < d) : d * fdiv a d ≤ a ∧ a < d * (fdiv a d + 1) := by
  have e : fdiv a d = a / d := Int.fdiv_eq_ediv_of_nonneg a (le_of_lt h)
  have := Int.mul_ediv_add_emod a d
  have := Int.emod_nonneg a (ne_of_gt h)
  have := Int.emod_lt_of_pos a h
  rw [e]
  constructor
  · omega
  · rw [mul_add]; omega

theorem fdiv_bounds_of_neg (a : Int) {d : Int} (h : d < 0) : a ≤ d * fdiv a d ∧ d * (fdiv a d + 1) < a := by
  have k : fdiv a d = fdiv (-a) (-d) := by simp [fdiv, Int.neg_fdiv_neg]
  have := fdiv_bounds_of_pos (-a) (d := -d) (by omega)
  rw [← k] at this
  constructor <;> nlinarith [this.1, this.2]

/-- The operation code and operand of a word, as quotient and remainder by 100. -/
theorem opcodeOf_eq (w : Int) : opcodeOf w = w / 100 :=
  Int.fdiv_eq_ediv_of_nonneg w (by decide)

theorem operandOf_eq (w : Int) : operandOf w = w % 100 := by
  have e : fdiv w 100 = w / 100 := Int.fdiv_eq_ediv_of_nonneg w (by decide)
  simp only [operandOf, fmod, Config.splitBase, e]
  omega

/-- The decoder's two laws (R61): the operand is an address, and the fields give back the word. -/
theorem operandOf_range (w : Int) : 0 ≤ operandOf w ∧ operandOf w ≤ 99 := by
  rw [operandOf_eq]; omega

theorem word_split (w : Int) : w = 100 * opcodeOf w + operandOf w := by
  rw [operandOf_eq, opcodeOf_eq]; omega

/-- A word put together from fields splits into them. -/
theorem opcodeOf_join (q m : Int) (h : 0 ≤ m ∧ m ≤ 99) : opcodeOf (100 * q + m) = q := by
  rw [opcodeOf_eq]; omega

theorem operandOf_join (q m : Int) (h : 0 ≤ m ∧ m ≤ 99) : operandOf (100 * q + m) = m := by
  rw [operandOf_eq]; omega

end Sys2Proof
end

