-- ==== Sys2Proof/Laws/Decode.lean ====
section
/-! SUPPORT. What the table lookup can answer (30_encoding.md R65, R66). -/

namespace Sys2Proof

/-- Every answer of the lookup, with the operation code that selects it. -/
theorem lookup_cases (q : Int) (m : Int) (w : Int) :
    (q = 10 ∧ lookup q m w = .read m) ∨ (q = 11 ∧ lookup q m w = .write m) ∨
    (q = 20 ∧ lookup q m w = .load m) ∨ (q = 21 ∧ lookup q m w = .store m) ∨
    (q = 30 ∧ lookup q m w = .add m) ∨ (q = 31 ∧ lookup q m w = .subtract m) ∨
    (q = 32 ∧ lookup q m w = .divide m) ∨ (q = 33 ∧ lookup q m w = .multiply m) ∨
    (q = 40 ∧ lookup q m w = .branch m) ∨ (q = 41 ∧ lookup q m w = .branchneg m) ∨
    (q = 42 ∧ lookup q m w = .branchzero m) ∨ (q = 43 ∧ lookup q m w = .halt m) ∨
    (q ∉ definedOpcodes ∧ lookup q m w = .illegal w) := by
  by_cases h : q ∈ definedOpcodes
  · simp only [definedOpcodes, List.mem_cons, List.not_mem_nil, or_false] at h
    rcases h with rfl | rfl | rfl | rfl | rfl | rfl | rfl | rfl | rfl | rfl | rfl | rfl <;> simp [lookup]
  · have e : lookup q m w = .illegal w := by
      simp only [definedOpcodes, List.mem_cons, List.not_mem_nil, or_false, not_or] at h
      unfold lookup
      split <;> simp_all
    simp [h, e]

/-- Decoding, by operation code. -/
theorem decode_eq_lookup (w : Int) : decode w = lookup (opcodeOf w) (operandOf w) w := rfl

end Sys2Proof
end

