-- ==== Sys2Proof/Laws/Memory.lean ====
section
/-! SUPPORT. Memory: a read after a write, and that every memory operation keeps the canonical form (20_memory.md R42). -/

namespace Sys2Proof.Machine

theorem Memory.wfFrom_mono {lo lo' : Nat} (h : lo' ≤ lo) : ∀ {m : Memory}, m.wfFrom lo = true → m.wfFrom lo' = true
  | [], _ => rfl
  | (k, v) :: rest, w => by
    simp only [Memory.wfFrom, Bool.and_eq_true, decide_eq_true_eq] at w ⊢
    exact ⟨⟨⟨by omega, w.1.1.2⟩, w.1.2⟩, w.2⟩

/-- An index below every listed one reads as unlisted. -/
theorem Memory.read_below {lo a : Nat} (h : a < lo) : ∀ {m : Memory}, m.wfFrom lo = true → m.read a = Memory.unlisted
  | [], _ => rfl
  | (k, v) :: rest, w => by
    simp only [Memory.wfFrom, Bool.and_eq_true, decide_eq_true_eq] at w
    have : k ≠ a := by omega
    simp only [Memory.read, this, if_false]
    exact Memory.read_below (lo := k + 1) (by omega) w.2

/-- A write leaves every other word alone; no canonical form is needed. -/
theorem Memory.read_write_other {a b : Nat} (v : Int) (h : b ≠ a) :
    ∀ m : Memory, (m.write a v).read b = m.read b
  | [] => by
    simp only [Memory.write]
    split
    · rfl
    · simp [Memory.read, Ne.symm h]
  | (k, w) :: rest => by
    simp only [Memory.write]
    split
    · split
      · rfl
      · simp [Memory.read, Ne.symm h]
    · split
      · next e =>
        subst e
        split <;> simp [Memory.read, Ne.symm h]
      · simp only [Memory.read]
        split
        · rfl
        · exact Memory.read_write_other v h rest

/-- A read of the written word gives the written value, in a memory of canonical form. -/
theorem Memory.read_write_same {a : Nat} (v : Int) :
    ∀ {lo : Nat} {m : Memory}, m.wfFrom lo = true → (m.write a v).read a = v
  | _, [], _ => by
    simp only [Memory.write]
    split
    · next e => simp [Memory.read, e]
    · simp [Memory.read]
  | _, (k, w) :: rest, h => by
    simp only [Memory.wfFrom, Bool.and_eq_true, decide_eq_true_eq] at h
    simp only [Memory.write]
    split
    · next lt =>
      split
      · next e =>
        rw [e]
        have : k ≠ a := by omega
        simp only [Memory.read, this, if_false]
        exact Memory.read_below (lo := k + 1) (by omega) h.2
      · simp [Memory.read]
    · split
      · next e =>
        subst e
        split
        · next z => rw [z]; exact Memory.read_below (lo := a + 1) (by omega) h.2
        · simp [Memory.read]
      · next ne =>
        have : k ≠ a := fun q => ne q.symm
        simp only [Memory.read, this, if_false]
        exact Memory.read_write_same v h.2

theorem Memory.wfFrom_write {a : Nat} (v : Int) (ha : a < 100) :
    ∀ {lo : Nat} {m : Memory}, lo ≤ a → m.wfFrom lo = true → (m.write a v).wfFrom lo = true
  | lo, [], l, _ => by
    simp only [Memory.write]
    split
    · rfl
    · next z => simp [Memory.wfFrom, l, ha, z]
  | lo, (k, w) :: rest, l, h => by
    have h' := h
    simp only [Memory.wfFrom, Bool.and_eq_true, decide_eq_true_eq] at h'
    obtain ⟨⟨⟨h1, h2⟩, h3⟩, h4⟩ := h'
    simp only [Memory.write]
    split
    · next lt =>
      split
      · exact h
      · next z =>
        simp only [Memory.wfFrom, Bool.and_eq_true, decide_eq_true_eq]
        exact ⟨⟨⟨l, ha⟩, z⟩, ⟨⟨by omega, h2⟩, h3⟩, h4⟩
    · split
      · next e =>
        subst e
        split
        · exact Memory.wfFrom_mono (by omega) h4
        · next z =>
          simp only [Memory.wfFrom, Bool.and_eq_true, decide_eq_true_eq]
          exact ⟨⟨⟨l, ha⟩, z⟩, h4⟩
      · simp only [Memory.wfFrom, Bool.and_eq_true, decide_eq_true_eq]
        exact ⟨⟨⟨h1, h2⟩, h3⟩, Memory.wfFrom_write v ha (by omega) h4⟩

/-- A write keeps the canonical form. -/
theorem Memory.wf_write {m : Memory} {a : Nat} (v : Int) (ha : a < 100) (h : m.wf = true) :
    (m.write a v).wf = true :=
  Memory.wfFrom_write v ha (Nat.zero_le a) h

theorem Memory.wf_zeroed : Memory.zeroed.wf = true := rfl

/-- A load of words keeps the canonical form while it stays inside memory. -/
theorem Memory.wf_writeFrom : ∀ {ws : List Int} {m : Memory} {i : Nat}, i + ws.length ≤ 100 → m.wf = true →
    (m.writeFrom i ws).wf = true
  | [], _, _, _, h => h
  | w :: ws, m, i, l, h => by
    simp only [List.length_cons] at l
    exact Memory.wf_writeFrom (i := i + 1) (by omega) (Memory.wf_write w (by omega) h)

/-- A load leaves the words below its first and beyond its last alone. -/
theorem Memory.read_writeFrom_outside : ∀ {ws : List Int} {m : Memory} {i a : Nat}, a < i ∨ i + ws.length ≤ a →
    (m.writeFrom i ws).read a = m.read a
  | [], _, _, _, _ => rfl
  | w :: ws, m, i, a, h => by
    simp only [List.length_cons] at h
    simp only [Memory.writeFrom]
    rw [Memory.read_writeFrom_outside (by omega), Memory.read_write_other w (by omega)]

/-- A load puts its `k`-th word at its first index plus `k`. -/
theorem Memory.read_writeFrom_inside : ∀ {ws : List Int} {m : Memory} {i k : Nat} {v : Int}, i + ws.length ≤ 100 →
    m.wf = true → ws[k]? = some v → (m.writeFrom i ws).read (i + k) = v
  | [], _, _, _, _, _, _, g => by simp at g
  | w :: ws, m, i, k, v, l, h, g => by
    simp only [List.length_cons] at l
    simp only [Memory.writeFrom]
    cases k with
    | zero =>
      have e : w = v := by simpa using g
      rw [Memory.read_writeFrom_outside (by omega), ← e]
      exact Memory.read_write_same w h
    | succ k =>
      have g' : ws[k]? = some v := by simpa using g
      have := Memory.read_writeFrom_inside (i := i + 1) (by omega) (Memory.wf_write w (by omega : i < 100) h) g'
      rw [show i + (k + 1) = i + 1 + k by omega]
      exact this

/-- Words of the state after `M[m] <- v`. -/
theorem setWord_word_same (m : Int) (v : Int) (s : State) (h : s.mem.wf = true) : (setWord m v s).word m = v :=
  Memory.read_write_same v h

theorem setWord_word_other (m a : Int) (v : Int) (s : State) (hm : 0 ≤ m) (ha : 0 ≤ a) (h : a ≠ m) :
    (setWord m v s).word a = s.word a :=
  Memory.read_write_other v (by omega) s.mem

theorem setWord_wf (m : Int) (v : Int) (s : State) (hm : 0 ≤ m ∧ m ≤ 99) (h : s.mem.wf = true) :
    (setWord m v s).mem.wf = true :=
  Memory.wf_write v (by omega) h

/-- The 100 words in address order, by length and by place. -/
@[simp] theorem allWords_length (s : State) : (allWords s).length = 100 := by simp [allWords]

@[simp] theorem allWords_get {i : Nat} (h : i < 100) (s : State) : (allWords s)[i]? = some (s.word i) := by
  simp [allWords, h]

end Sys2Proof.Machine
end

