-- ==== Sys2Proof/Laws/State.lean ====
section
/-! SUPPORT. One lemma per field per state update, so that no later proof unfolds a record update. -/

namespace Sys2Proof.Machine

variable (s : State)

@[simp] theorem setAcc_acc (v : Int) : (setAcc v s).acc = v := rfl
@[simp] theorem setAcc_pc (v : Int) : (setAcc v s).pc = s.pc := rfl
@[simp] theorem setAcc_ir (v : Int) : (setAcc v s).ir = s.ir := rfl
@[simp] theorem setAcc_opc (v : Int) : (setAcc v s).opc = s.opc := rfl
@[simp] theorem setAcc_opd (v : Int) : (setAcc v s).opd = s.opd := rfl
@[simp] theorem setAcc_mem (v : Int) : (setAcc v s).mem = s.mem := rfl
@[simp] theorem setAcc_rs (v : Int) : (setAcc v s).rs = s.rs := rfl
@[simp] theorem setAcc_hc (v : Int) : (setAcc v s).hc = s.hc := rfl
@[simp] theorem setAcc_pend (v : Int) : (setAcc v s).pend = s.pend := rfl
@[simp] theorem setAcc_hist (v : Int) : (setAcc v s).hist = s.hist := rfl
@[simp] theorem setAcc_script (v : Int) : (setAcc v s).script = s.script := rfl

@[simp] theorem setPc_acc (a : Int) : (setPc a s).acc = s.acc := rfl
@[simp] theorem setPc_pc (a : Int) : (setPc a s).pc = a := rfl
@[simp] theorem setPc_ir (a : Int) : (setPc a s).ir = s.ir := rfl
@[simp] theorem setPc_opc (a : Int) : (setPc a s).opc = s.opc := rfl
@[simp] theorem setPc_opd (a : Int) : (setPc a s).opd = s.opd := rfl
@[simp] theorem setPc_mem (a : Int) : (setPc a s).mem = s.mem := rfl
@[simp] theorem setPc_rs (a : Int) : (setPc a s).rs = s.rs := rfl
@[simp] theorem setPc_hc (a : Int) : (setPc a s).hc = s.hc := rfl
@[simp] theorem setPc_pend (a : Int) : (setPc a s).pend = s.pend := rfl
@[simp] theorem setPc_hist (a : Int) : (setPc a s).hist = s.hist := rfl
@[simp] theorem setPc_script (a : Int) : (setPc a s).script = s.script := rfl

@[simp] theorem setPend_acc (p : Option Int) : (setPend p s).acc = s.acc := rfl
@[simp] theorem setPend_pc (p : Option Int) : (setPend p s).pc = s.pc := rfl
@[simp] theorem setPend_ir (p : Option Int) : (setPend p s).ir = s.ir := rfl
@[simp] theorem setPend_opc (p : Option Int) : (setPend p s).opc = s.opc := rfl
@[simp] theorem setPend_opd (p : Option Int) : (setPend p s).opd = s.opd := rfl
@[simp] theorem setPend_mem (p : Option Int) : (setPend p s).mem = s.mem := rfl
@[simp] theorem setPend_rs (p : Option Int) : (setPend p s).rs = s.rs := rfl
@[simp] theorem setPend_hc (p : Option Int) : (setPend p s).hc = s.hc := rfl
@[simp] theorem setPend_pend (p : Option Int) : (setPend p s).pend = p := rfl
@[simp] theorem setPend_hist (p : Option Int) : (setPend p s).hist = s.hist := rfl
@[simp] theorem setPend_script (p : Option Int) : (setPend p s).script = s.script := rfl

@[simp] theorem setWord_acc (a : Int) (v : Int) : (setWord a v s).acc = s.acc := rfl
@[simp] theorem setWord_pc (a : Int) (v : Int) : (setWord a v s).pc = s.pc := rfl
@[simp] theorem setWord_ir (a : Int) (v : Int) : (setWord a v s).ir = s.ir := rfl
@[simp] theorem setWord_opc (a : Int) (v : Int) : (setWord a v s).opc = s.opc := rfl
@[simp] theorem setWord_opd (a : Int) (v : Int) : (setWord a v s).opd = s.opd := rfl
@[simp] theorem setWord_mem (a : Int) (v : Int) : (setWord a v s).mem = s.mem.write a.toNat v := rfl
@[simp] theorem setWord_rs (a : Int) (v : Int) : (setWord a v s).rs = s.rs := rfl
@[simp] theorem setWord_hc (a : Int) (v : Int) : (setWord a v s).hc = s.hc := rfl
@[simp] theorem setWord_pend (a : Int) (v : Int) : (setWord a v s).pend = s.pend := rfl
@[simp] theorem setWord_hist (a : Int) (v : Int) : (setWord a v s).hist = s.hist := rfl
@[simp] theorem setWord_script (a : Int) (v : Int) : (setWord a v s).script = s.script := rfl

@[simp] theorem emit_acc (e : Event) : (emit e s).acc = s.acc := rfl
@[simp] theorem emit_pc (e : Event) : (emit e s).pc = s.pc := rfl
@[simp] theorem emit_ir (e : Event) : (emit e s).ir = s.ir := rfl
@[simp] theorem emit_opc (e : Event) : (emit e s).opc = s.opc := rfl
@[simp] theorem emit_opd (e : Event) : (emit e s).opd = s.opd := rfl
@[simp] theorem emit_mem (e : Event) : (emit e s).mem = s.mem := rfl
@[simp] theorem emit_rs (e : Event) : (emit e s).rs = s.rs := rfl
@[simp] theorem emit_hc (e : Event) : (emit e s).hc = s.hc := rfl
@[simp] theorem emit_pend (e : Event) : (emit e s).pend = s.pend := rfl
@[simp] theorem emit_hist (e : Event) : (emit e s).hist = s.hist ++ [e] := rfl
@[simp] theorem emit_script (e : Event) : (emit e s).script = s.script := rfl

@[simp] theorem enterHalt_acc (c : HaltCause) : (enterHalt c s).acc = s.acc := rfl
@[simp] theorem enterHalt_pc (c : HaltCause) : (enterHalt c s).pc = s.pc := rfl
@[simp] theorem enterHalt_ir (c : HaltCause) : (enterHalt c s).ir = s.ir := rfl
@[simp] theorem enterHalt_opc (c : HaltCause) : (enterHalt c s).opc = s.opc := rfl
@[simp] theorem enterHalt_opd (c : HaltCause) : (enterHalt c s).opd = s.opd := rfl
@[simp] theorem enterHalt_mem (c : HaltCause) : (enterHalt c s).mem = s.mem := rfl
@[simp] theorem enterHalt_rs (c : HaltCause) : (enterHalt c s).rs = RunState.halted := rfl
@[simp] theorem enterHalt_hc (c : HaltCause) : (enterHalt c s).hc = c := rfl
@[simp] theorem enterHalt_pend (c : HaltCause) : (enterHalt c s).pend = s.pend := rfl
@[simp] theorem enterHalt_hist (c : HaltCause) : (enterHalt c s).hist = s.hist ++ [.status c] := rfl
@[simp] theorem enterHalt_script (c : HaltCause) : (enterHalt c s).script = s.script := rfl

@[simp] theorem latch_acc (w : Int) : (latch w s).acc = s.acc := rfl
@[simp] theorem latch_pc (w : Int) : (latch w s).pc = s.pc + 1 := rfl
@[simp] theorem latch_ir (w : Int) : (latch w s).ir = w := rfl
@[simp] theorem latch_opc (w : Int) : (latch w s).opc = opcodeOf w := rfl
@[simp] theorem latch_opd (w : Int) : (latch w s).opd = operandOf w := rfl
@[simp] theorem latch_mem (w : Int) : (latch w s).mem = s.mem := rfl
@[simp] theorem latch_rs (w : Int) : (latch w s).rs = s.rs := rfl
@[simp] theorem latch_hc (w : Int) : (latch w s).hc = s.hc := rfl
@[simp] theorem latch_pend (w : Int) : (latch w s).pend = s.pend := rfl
@[simp] theorem latch_hist (w : Int) : (latch w s).hist = s.hist := rfl
@[simp] theorem latch_script (w : Int) : (latch w s).script = s.script := rfl

@[simp] theorem resetMachine_acc : (resetMachine s).acc = 0 := rfl
@[simp] theorem resetMachine_pc : (resetMachine s).pc = 0 := rfl
@[simp] theorem resetMachine_ir : (resetMachine s).ir = 0 := rfl
@[simp] theorem resetMachine_opc : (resetMachine s).opc = 0 := rfl
@[simp] theorem resetMachine_opd : (resetMachine s).opd = 0 := rfl
@[simp] theorem resetMachine_mem : (resetMachine s).mem = [] := rfl
@[simp] theorem resetMachine_rs : (resetMachine s).rs = RunState.ready := rfl
@[simp] theorem resetMachine_hc : (resetMachine s).hc = HaltCause.none := rfl
@[simp] theorem resetMachine_pend : (resetMachine s).pend = none := rfl
@[simp] theorem resetMachine_hist : (resetMachine s).hist = s.hist := rfl
@[simp] theorem resetMachine_script : (resetMachine s).script = s.script := rfl

@[simp] theorem haltedWith_acc (c : HaltCause) : (haltedWith c s).acc = s.acc := rfl
@[simp] theorem haltedWith_pc (c : HaltCause) : (haltedWith c s).pc = s.pc := rfl
@[simp] theorem haltedWith_ir (c : HaltCause) : (haltedWith c s).ir = s.ir := rfl
@[simp] theorem haltedWith_opc (c : HaltCause) : (haltedWith c s).opc = s.opc := rfl
@[simp] theorem haltedWith_opd (c : HaltCause) : (haltedWith c s).opd = s.opd := rfl
@[simp] theorem haltedWith_mem (c : HaltCause) : (haltedWith c s).mem = s.mem := rfl
@[simp] theorem haltedWith_rs (c : HaltCause) : (haltedWith c s).rs = RunState.halted := rfl
@[simp] theorem haltedWith_hc (c : HaltCause) : (haltedWith c s).hc = c := rfl
@[simp] theorem haltedWith_pend (c : HaltCause) : (haltedWith c s).pend = s.pend := rfl
@[simp] theorem haltedWith_hist (c : HaltCause) : (haltedWith c s).hist = s.hist ++ [.status c] := rfl
@[simp] theorem haltedWith_script (c : HaltCause) : (haltedWith c s).script = s.script := rfl

@[simp] theorem fetched_acc : (fetched s).acc = s.acc := rfl
@[simp] theorem fetched_pc : (fetched s).pc = s.pc + 1 := rfl
@[simp] theorem fetched_ir : (fetched s).ir = s.word s.pc := rfl
@[simp] theorem fetched_opc : (fetched s).opc = fdiv (s.word s.pc) 100 := rfl
@[simp] theorem fetched_opd : (fetched s).opd = fmod (s.word s.pc) 100 := rfl
@[simp] theorem fetched_mem : (fetched s).mem = s.mem := rfl
@[simp] theorem fetched_rs : (fetched s).rs = s.rs := rfl
@[simp] theorem fetched_hc : (fetched s).hc = s.hc := rfl
@[simp] theorem fetched_pend : (fetched s).pend = s.pend := rfl
@[simp] theorem fetched_hist : (fetched s).hist = s.hist := rfl
@[simp] theorem fetched_script : (fetched s).script = s.restScript := rfl

@[simp] theorem turnTaken_acc : s.turnTaken.acc = s.acc := rfl
@[simp] theorem turnTaken_pc : s.turnTaken.pc = s.pc := rfl
@[simp] theorem turnTaken_ir : s.turnTaken.ir = s.ir := rfl
@[simp] theorem turnTaken_opc : s.turnTaken.opc = s.opc := rfl
@[simp] theorem turnTaken_opd : s.turnTaken.opd = s.opd := rfl
@[simp] theorem turnTaken_mem : s.turnTaken.mem = s.mem := rfl
@[simp] theorem turnTaken_rs : s.turnTaken.rs = s.rs := rfl
@[simp] theorem turnTaken_hc : s.turnTaken.hc = s.hc := rfl
@[simp] theorem turnTaken_pend : s.turnTaken.pend = s.pend := rfl
@[simp] theorem turnTaken_hist : s.turnTaken.hist = s.hist := rfl
@[simp] theorem turnTaken_script : s.turnTaken.script = s.restScript := rfl
@[simp] theorem turnTaken_word (a : Int) : s.turnTaken.word a = s.word a := rfl

/-- A read depends on memory alone. -/
theorem word_congr (s t : State) (h : t.mem = s.mem) (a : Int) : t.word a = s.word a := by
  simp [State.word, h]

@[simp] theorem setAcc_word (v : Int) (a : Int) : (setAcc v s).word a = s.word a := rfl
@[simp] theorem setPc_word (p a : Int) : (setPc p s).word a = s.word a := rfl
@[simp] theorem setPend_word (p : Option Int) (a : Int) : (setPend p s).word a = s.word a := rfl
@[simp] theorem emit_word (e : Event) (a : Int) : (emit e s).word a = s.word a := rfl
@[simp] theorem enterHalt_word (c : HaltCause) (a : Int) : (enterHalt c s).word a = s.word a := rfl
@[simp] theorem latch_word (w : Int) (a : Int) : (latch w s).word a = s.word a := rfl
@[simp] theorem haltedWith_word (c : HaltCause) (a : Int) : (haltedWith c s).word a = s.word a := rfl
@[simp] theorem fetched_word (a : Int) : (fetched s).word a = s.word a := rfl
@[simp] theorem resetMachine_word (a : Int) : (resetMachine s).word a = 0 := rfl

/-- The halt entry is the record update that R106 writes. -/
theorem enterHalt_eq_haltedWith (c : HaltCause) : enterHalt c s = haltedWith c s := rfl

/-- The fetch of the core's turn is the record update that R74 writes. -/
theorem latch_eq_fetched : latch (s.word s.pc) s.turnTaken = fetched s := rfl

end Sys2Proof.Machine
end

