-- ==== Sys2Proof/Laws/Ops.lean ====
section
/-! SUPPORT. One lemma per shared operation: everything it can answer, for callers to cite instead of unfolding it. -/

namespace Sys2Proof.Machine

theorem inBounds_iff (a : Int) : inBounds a ↔ InMem a := by
  simp only [inBounds, InMem, Config.capacity]; omega

theorem memRead_inside {a : Int} (h : InMem a) (s : State) : memRead a s = some (s.word a) := by
  simp [memRead, (inBounds_iff a).2 h]

theorem memRead_outside {a : Int} (h : ¬ InMem a) (s : State) : memRead a s = none := by
  simp only [memRead, inBounds_iff, if_neg h]

theorem memWrite_inside {a : Int} (h : InMem a) (v : Int) (s : State) : memWrite a v s = some (setWord a v s) := by
  simp [memWrite, (inBounds_iff a).2 h]

theorem memWrite_outside {a : Int} (h : ¬ InMem a) (v : Int) (s : State) : memWrite a v s = none := by
  simp only [memWrite, inBounds_iff, if_neg h]

theorem withOperand_inside {m : Int} (h : InMem m) (s : State) (use : Int → Result) :
    withOperand m s use = use (s.word m) := by
  simp [withOperand, memRead_inside h]

theorem withOperand_outside {m : Int} (h : ¬ InMem m) (s : State) (use : Int → Result) :
    withOperand m s use = raiseFault .outOfBounds s := by
  simp only [withOperand, memRead_outside h]

theorem toOperand_inside {m : Int} (h : InMem m) (v : Int) (s : State) : toOperand m v s = .next (setWord m v s) := by
  simp [toOperand, memWrite_inside h]

theorem toOperand_outside {m : Int} (h : ¬ InMem m) (v : Int) (s : State) :
    toOperand m v s = raiseFault .outOfBounds s := by
  simp only [toOperand, memWrite_outside h]

/-- The ALU path, by its two outcomes. -/
theorem aluToAcc_inside {m : Int} (h : InMem m) (op : AluOp) (s : State) :
    aluToAcc op m s =
      match alu op s.acc (s.word m) with
      | some r => .next (setAcc r s)
      | none => raiseFault .divideByZero s :=
  withOperand_inside h s _

theorem aluToAcc_outside {m : Int} (h : ¬ InMem m) (op : AluOp) (s : State) :
    aluToAcc op m s = raiseFault .outOfBounds s :=
  withOperand_outside h s _

/-- The divide-by-zero signal, and nothing else, makes the ALU answer no result. -/
theorem alu_none_iff (op : AluOp) (a b : Int) : alu op a b = none ↔ op = .divide ∧ b = 0 := by
  cases op <;> simp [alu]

/-- The branch conditions as propositions on `ACC` (R26). -/
@[simp] theorem accNegative_iff (s : State) : accNegative s = true ↔ s.acc < 0 := by simp [accNegative]

@[simp] theorem accZero_iff (s : State) : accZero s = true ↔ s.acc = 0 := by simp [accZero]

theorem branchIf_taken {taken : Bool} (h : taken = true) (m : Int) (s : State) : branchIf taken m s = .next (setPc m s) := by
  simp [branchIf, h]

theorem branchIf_untaken {taken : Bool} (h : ¬ taken = true) (m : Int) (s : State) : branchIf taken m s = .next s := by
  simp [branchIf, h]

/-- What any meaning can do, said once: the states an instruction `i` may leave, case by case. -/
inductive ExecEffect (i : Instr) (s : State) : State → Prop
  | acc (v m : Int) (h : InMem m)
      (hi : i = .load m ∨ i = .add m ∨ i = .subtract m ∨ i = .divide m ∨ i = .multiply m) : ExecEffect i s (setAcc v s)
  | word (m : Int) (h : InMem m) (hi : i = .store m) : ExecEffect i s (setWord m s.acc s)
  | jump (m : Int) (hi : i = .branch m ∨ i = .branchneg m ∨ i = .branchzero m) : ExecEffect i s (setPc m s)
  | fall (m : Int) (hi : i = .branchneg m ∨ i = .branchzero m) : ExecEffect i s s
  | readIssue (m : Int) (hi : i = .read m) : ExecEffect i s (emit (.inReq m) (setPend (some m) s))
  | output (m : Int) (h : InMem m) (hi : i = .write m) : ExecEffect i s (emit (.out m (s.word m)) s)
  | halts (c : HaltCause) (hc : c ≠ .none) : ExecEffect i s (enterHalt c s)

theorem aluToAcc_effect (i : Instr) (op : AluOp) (m : Int) (s : State)
    (hi : i = .load m ∨ i = .add m ∨ i = .subtract m ∨ i = .divide m ∨ i = .multiply m) :
    ∃ t, aluToAcc op m s = .next t ∧ ExecEffect i s t := by
  by_cases h : InMem m
  · rw [aluToAcc_inside h]
    cases alu op s.acc (s.word m) with
    | none => exact ⟨_, rfl, .halts _ (by decide)⟩
    | some r => exact ⟨_, rfl, .acc r m h hi⟩
  · exact ⟨_, aluToAcc_outside h op s, .halts _ (by decide)⟩

/-- Every meaning answers a next state, and it is one of the effects above. -/
theorem exec_effect (i : Instr) (s : State) : ∃ t, exec i s = .next t ∧ ExecEffect i s t := by
  cases i with
  | add m => exact aluToAcc_effect _ .add m s (by simp)
  | subtract m => exact aluToAcc_effect _ .subtract m s (by simp)
  | divide m => exact aluToAcc_effect _ .divide m s (by simp)
  | multiply m => exact aluToAcc_effect _ .multiply m s (by simp)
  | load m =>
    by_cases h : InMem m
    · exact ⟨_, withOperand_inside h s _, .acc _ m h (by simp)⟩
    · exact ⟨_, withOperand_outside h s _, .halts _ (by decide)⟩
  | write m =>
    by_cases h : InMem m
    · exact ⟨_, withOperand_inside h s _, .output m h rfl⟩
    · exact ⟨_, withOperand_outside h s _, .halts _ (by decide)⟩
  | store m =>
    by_cases h : InMem m
    · exact ⟨_, toOperand_inside h _ s, .word m h rfl⟩
    · exact ⟨_, toOperand_outside h _ s, .halts _ (by decide)⟩
  | read m => exact ⟨_, rfl, .readIssue m rfl⟩
  | branch m => exact ⟨_, rfl, .jump m (by simp)⟩
  | branchneg m =>
    refine ⟨_, rfl, ?_⟩
    cases accNegative s
    · exact .fall m (by simp)
    · exact .jump m (by simp)
  | branchzero m =>
    refine ⟨_, rfl, ?_⟩
    cases accZero s
    · exact .fall m (by simp)
    · exact .jump m (by simp)
  | halt m => exact ⟨_, rfl, .halts .halt (by decide)⟩
  | illegal w => exact ⟨_, rfl, .halts .unknownOpcode (by decide)⟩

/-- The inversion form. -/
theorem exec_next {i : Instr} {s t : State} (h : exec i s = .next t) : ExecEffect i s t := by
  obtain ⟨u, e, k⟩ := exec_effect i s
  rw [e] at h
  injection h with h
  exact h ▸ k

/-- A meaning never touches the script or the fetch latches. -/
theorem ExecEffect.keeps {i : Instr} {s t : State} (h : ExecEffect i s t) : t.script = s.script ∧ SameLatches s t := by
  cases h <;> exact ⟨rfl, rfl, rfl, rfl⟩

end Sys2Proof.Machine
end

