-- ==== Sys2Proof/Laws/Host.lean ====
section
/-! SUPPORT. The host's moves: admission event by event, and the state each one leaves. -/

namespace Sys2Proof.Machine

@[simp] theorem admitted_reset (s : State) : admitted .reset s = true := rfl
@[simp] theorem admitted_run (s : State) : admitted .run s = true := rfl
@[simp] theorem admitted_load (ws : List Int) (s : State) : admitted (.load ws) s = true ↔ s.rs = .ready := by
  simp [admitted]
@[simp] theorem admitted_loadAbort (s : State) : admitted .loadAbort s = true ↔ s.rs = .ready := by
  simp [admitted]
@[simp] theorem admitted_inData (v : Int) (s : State) :
    admitted (.inData v) s = true ↔ s.rs = .running ∧ s.pend.isSome = true := by
  simp [admitted]
@[simp] theorem admitted_dumpReq (s : State) : admitted .dumpReq s = true ↔ s.rs = .ready ∨ s.rs = .halted := by
  simp [admitted]

/-- The completion of a READ that waits on an address of memory. -/
theorem completeRead_inside {a : Int} (h : InMem a) (v : Int) (s : State) (p : s.pend = some a) :
    completeRead v s = setPend none (setWord a v s) := by
  simp [completeRead, p, memWrite_inside h]

theorem completeRead_outside {a : Int} (h : ¬ InMem a) (v : Int) (s : State) (p : s.pend = some a) :
    completeRead v s = enterHalt .outOfBounds s := by
  simp only [completeRead, p, memWrite_outside h]

theorem completeRead_none (v : Int) (s : State) (p : s.pend = none) : completeRead v s = s := by
  simp [completeRead, p]

theorem runCommand_eq (s : State) : runCommand s = { s with rs := if s.rs = .ready then .running else s.rs } := by
  cases s with
  | mk acc pc ir opc opd mem rs hc pend hist script => cases rs <;> rfl

@[simp] theorem toEvent_reset : HostEvent.toEvent .reset = .reset := rfl
@[simp] theorem toEvent_load (ws : List Int) : HostEvent.toEvent (.load ws) = .load ws := rfl
@[simp] theorem toEvent_loadAbort : HostEvent.toEvent .loadAbort = .loadAbort := rfl
@[simp] theorem toEvent_run : HostEvent.toEvent .run = .run := rfl
@[simp] theorem toEvent_inData (v : Int) : HostEvent.toEvent (.inData v) = .inData v := rfl
@[simp] theorem toEvent_dumpReq : HostEvent.toEvent .dumpReq = .dumpReq := rfl

/-! The state each move leaves, in one equation a move. -/

theorem hostMove_reset (s : State) :
    hostMove .reset s = { State.reset with hist := s.hist ++ [.reset], script := s.script } := rfl

theorem hostMove_run (s : State) :
    hostMove .run s = { s with rs := if s.rs = .ready then .running else s.rs, hist := s.hist ++ [.run] } := by
  simp [hostMove, hostEffect, runCommand_eq, emit]

theorem hostMove_loadAbort (s : State) :
    hostMove .loadAbort s = { s with mem := [], hist := s.hist ++ [.loadAbort, .loadAck .loadError] } := by
  simp [hostMove, hostEffect, rejectLoad, emit, Memory.zeroed]

theorem hostMove_load_fits {ws : List Int} (h : ws.length ≤ 100) (s : State) :
    hostMove (.load ws) s = { s with mem := s.mem.writeFrom 0 ws, hist := s.hist ++ [.load ws, .loadAck .ok] } := by
  simp [hostMove, hostEffect, loadProgram, h, emit]

theorem hostMove_load_over {ws : List Int} (h : 100 < ws.length) (s : State) :
    hostMove (.load ws) s = { s with mem := [], hist := s.hist ++ [.load ws, .loadAck .loadError] } := by
  simp [hostMove, hostEffect, loadProgram, show ¬ ws.length ≤ 100 by omega, rejectLoad, emit, Memory.zeroed]

theorem hostMove_inData_inside {a : Int} (h : InMem a) (v : Int) (s : State) (p : s.pend = some a) :
    hostMove (.inData v) s = { setWord a v s with pend := none, hist := s.hist ++ [.inData v] } := by
  simp only [hostMove, hostEffect, completeRead_inside h v _ (show (emit _ s).pend = some a from p)]
  rfl

theorem hostMove_inData_outside {a : Int} (h : ¬ InMem a) (v : Int) (s : State) (p : s.pend = some a) :
    hostMove (.inData v) s =
      { s with rs := .halted, hc := .outOfBounds, hist := s.hist ++ [.inData v, .status .outOfBounds] } := by
  have e := completeRead_outside h v (emit (.inData v) s) (by simpa using p)
  simp only [hostMove, hostEffect, toEvent_inData, e]
  simp [enterHalt, emit]

theorem hostMove_dumpReq (s : State) :
    hostMove .dumpReq s = { s with hist := s.hist ++ [.dumpReq, .dump (snapshot s)] } := by
  have e : snapshot (emit .dumpReq s) = snapshot s := rfl
  simp only [hostMove, hostEffect, dumpState, toEvent_dumpReq, e]
  simp [emit]

/-- Every host event keeps the script that is left. -/
theorem hostMove_script (e : HostEvent) (s : State) : (hostMove e s).script = s.script := by
  cases e with
  | reset => rfl
  | loadAbort => rfl
  | dumpReq => rfl
  | run => simp [hostMove, hostEffect, runCommand_eq]
  | load ws => simp only [hostMove, hostEffect, loadProgram]; split <;> rfl
  | inData v =>
    simp only [hostMove, hostEffect, completeRead]
    split
    · rfl
    · next a _ =>
      by_cases h : InMem a
      · simp [memWrite_inside h]
      · simp [memWrite_outside h]

end Sys2Proof.Machine
end

