-- ==== Sys2Proof/Laws/PerInstr.lean ====
section
/-! SUPPORT. The family EncodedFields, per instruction: the word of a well-formed instruction carries its operation code and its
operand (30_encoding.md R59, R65). -/

namespace Sys2Proof.Laws.EncodedFields

/-- The encoded word splits into the instruction's operation code and operand. -/
def Statement (i : Instr) : Prop :=
  i.WellFormed → opcodeOf (encode i) = i.opcode ∧ operandOf (encode i) = i.operand

/-- A row's first word is 100 times its operation code. -/
theorem of_row {q m base : Int} (e : base = 100 * q) (h : operandInRange m = true) :
    opcodeOf (base + m) = q ∧ operandOf (base + m) = m := by
  simp only [operandInRange, Bool.and_eq_true, decide_eq_true_eq] at h
  subst e
  exact ⟨opcodeOf_join q m h, operandOf_join q m h⟩

theorem read (m : Int) : Statement (.read m) := fun h => of_row rfl h
theorem write (m : Int) : Statement (.write m) := fun h => of_row rfl h
theorem load (m : Int) : Statement (.load m) := fun h => of_row rfl h
theorem store (m : Int) : Statement (.store m) := fun h => of_row rfl h
theorem add (m : Int) : Statement (.add m) := fun h => of_row rfl h
theorem subtract (m : Int) : Statement (.subtract m) := fun h => of_row rfl h
theorem divide (m : Int) : Statement (.divide m) := fun h => of_row rfl h
theorem multiply (m : Int) : Statement (.multiply m) := fun h => of_row rfl h
theorem branch (m : Int) : Statement (.branch m) := fun h => of_row rfl h
theorem branchneg (m : Int) : Statement (.branchneg m) := fun h => of_row rfl h
theorem branchzero (m : Int) : Statement (.branchzero m) := fun h => of_row rfl h
theorem halt (m : Int) : Statement (.halt m) := fun h => of_row rfl h
theorem illegal (w : Int) : Statement (.illegal w) := fun _ => ⟨rfl, rfl⟩

end Sys2Proof.Laws.EncodedFields
end

