-- ==== Sys2Proof/Laws/Realisation.lean ====
section
/-! SUPPORT. Which integers a realisation's bound is about (92_eei_decisions.md D2). -/

namespace Sys2Proof.Machine

/-- The words of memory are those at the addresses 0 to 99. -/
theorem mem_allWords (s : State) (v : Int) : v ∈ allWords s ↔ ∃ a, InMem a ∧ s.word a = v := by
  simp only [allWords, List.mem_map, List.mem_range]
  constructor
  · rintro ⟨i, hi, e⟩
    exact ⟨Int.ofNat i, ⟨Int.natCast_nonneg i, by simp only [Int.ofNat_eq_natCast]; omega⟩, e⟩
  · rintro ⟨a, h, e⟩
    exact ⟨a.toNat, by omega, by rw [Int.ofNat_eq_natCast, Int.toNat_of_nonneg h.1, e]⟩

/-- A stored integer is one of the five registers, the pending address, or a word of memory. -/
theorem mem_storedValues (s : State) (v : Int) :
    v ∈ storedValues s ↔ v = s.acc ∨ v = s.pc ∨ v = s.ir ∨ v = s.opc ∨ v = s.opd ∨ s.pend = some v ∨
      ∃ a, InMem a ∧ s.word a = v := by
  simp [storedValues, mem_allWords]

/-- The bound check as a statement about each stored integer. -/
theorem withinBound_iff (bound : Nat) (s : State) :
    withinBound bound s = true ↔ ∀ v ∈ storedValues s, |v| ≤ (bound : Int) := by
  simp only [withinBound, List.all_eq_true, decide_eq_true_eq, Int.abs_eq_natAbs, Int.ofNat_le]

end Sys2Proof.Machine
end

