-- ==== Sys2Proof/Laws/Step.lean ====
section
/-! SUPPORT. What one step can do, said once: a host move that is admitted, or an instruction step of the core. -/

namespace Sys2Proof.Machine

theorem fetchExecute_inside {s : State} (h : InMem s.pc) :
    fetchExecute s = exec (decode (s.word s.pc)) (latch (s.word s.pc) s) := by
  simp [fetchExecute, fetch, memRead_inside h]

theorem fetchExecute_outside {s : State} (h : ¬ InMem s.pc) : fetchExecute s = .next (enterHalt .outOfBounds s) := by
  simp only [fetchExecute, fetch, memRead_outside h]
  rfl

theorem coreStep_enabled {s : State} (h : s.CoreEnabled) : coreStep s = fetchExecute s := by
  simp [coreStep, h.1, h.2]

/-- The core's step answers a next state only where it has one (R73). -/
theorem coreStep_next {s t : State} (h : coreStep s = .next t) : s.CoreEnabled ∧ fetchExecute s = .next t := by
  unfold coreStep at h
  split at h
  · cases h
  · cases h
  · next r =>
    split at h
    · cases h
    · next p => exact ⟨⟨r, p⟩, h⟩

theorem step_coreTurn {s : State} (h : s.CoreTurn) : step s = coreStep s.turnTaken := by
  obtain ⟨acc, pc, ir, opc, opd, mem, rs, hc, pend, hist, script⟩ := s
  rcases script with _ | ⟨_ | e, rest⟩
  · rfl
  · rfl
  · have ha : admitted e ⟨acc, pc, ir, opc, opd, mem, rs, hc, pend, hist, .host e :: rest⟩ = false := by
      simpa [State.CoreTurn, State.coreTurn] using h
    simp [step, takeTurn, ha, State.turnTaken, State.restScript]

theorem step_host {s : State} {e : HostEvent} {rest : List Turn} (h : s.script = .host e :: rest) :
    step s = if admitted e s then .next (hostMove e { s with script := rest }) else coreStep s := by
  simp [step, takeTurn, h]

/-- What a step can do: an admitted host move, or the core's fetch and execute with its turn taken. -/
inductive StepEffect (s : State) : State → Prop
  | host (e : HostEvent) (rest : List Turn) (hs : s.script = .host e :: rest) (ha : admitted e s = true) :
      StepEffect s (hostMove e { s with script := rest })
  | core (t : State) (en : s.CoreEnabled) (ct : s.CoreTurn) (fe : fetchExecute s.turnTaken = .next t) : StepEffect s t

/-- The inversion of a step. -/
theorem step_next {s t : State} (h : step s = .next t) : StepEffect s t := by
  by_cases c : s.CoreTurn
  · rw [step_coreTurn c] at h
    obtain ⟨en, fe⟩ := coreStep_next h
    exact .core t en c fe
  · obtain ⟨e, rest, hs, ha⟩ : ∃ e rest, s.script = .host e :: rest ∧ admitted e s = true := by
      unfold State.CoreTurn State.coreTurn at c
      split at c
      · simp at c
      · simp at c
      · next e rest hs => exact ⟨e, rest, hs, by simpa using c⟩
    rw [step_host hs, if_pos ha] at h
    injection h with h
    exact h ▸ .host e rest hs ha

/-- The core's part of a step: the decoded instruction's effect on the fetched state, or the halt of a fetch outside memory. -/
theorem fetchExecute_next {s t : State} (h : fetchExecute s.turnTaken = .next t) :
    (InMem s.pc ∧ ExecEffect (decode (s.word s.pc)) (fetched s) t) ∨
    (¬ InMem s.pc ∧ t = haltedWith .outOfBounds s.turnTaken) := by
  by_cases i : InMem s.pc
  · rw [fetchExecute_inside (s := s.turnTaken) i] at h
    exact .inl ⟨i, exec_next h⟩
  · rw [fetchExecute_outside (s := s.turnTaken) i] at h
    injection h with h
    exact .inr ⟨i, h.symm⟩

/-- Runs of the machine, one step at a time. -/
theorem run_zero (s : State) : Host.Core.run Sys2Proof.core 0 s = .next s := rfl

theorem run_succ_next {s u : State} (k : Nat) (h : step s = .next u) :
    Host.Core.run Sys2Proof.core (k + 1) s = Host.Core.run Sys2Proof.core k u := by
  have e : Sys2Proof.core.step s = .next u := h
  simp only [Host.Core.run, e]

theorem run_succ_inv {s t : State} {k : Nat} (h : Host.Core.run Sys2Proof.core (k + 1) s = .next t) :
    ∃ u, step s = .next u ∧ Host.Core.run Sys2Proof.core k u = .next t := by
  cases e : step s with
  | next u => exact ⟨u, rfl, by rw [← run_succ_next k e]; exact h⟩
  | fault r =>
    have e' : Sys2Proof.core.step s = .fault r := e
    simp only [Host.Core.run, e'] at h
    cases h
  | refused r =>
    have e' : Sys2Proof.core.step s = .refused r := e
    simp only [Host.Core.run, e'] at h
    cases h

/-- How one more event counts. -/
theorem statusesSinceReset_append (h : List Event) (e : Event) :
    statusesSinceReset (h ++ [e]) =
      match e with
      | .reset => 0
      | .status _ => statusesSinceReset h + 1
      | _ => statusesSinceReset h := by
  simp only [statusesSinceReset, List.foldl_append, List.foldl_cons, List.foldl_nil]
  cases e <;> rfl

end Sys2Proof.Machine
end

