-- ==== Sys2Proof/Tests/Slice0.lean ====
section
/-! SUPPORT. The model's own tests. Expected values are the spec's: 30_encoding.md R65 and the vectors of 95_test_vectors.md, named
at each test. Witnesses at the end meet the hypotheses of the statements in Certificates/Slice0/Obligations.lean. -/

namespace Sys2Proof.Tests

open Sys2Proof.Machine

/-- A running core at `pc` with `ACC` and memory as given, and nothing for the host to do. -/
def core (pc acc : Int) (mem : Memory) : State := { State.reset with pc := pc, acc := acc, mem := mem, rs := .running }

/-- The next state, if there is one. -/
def nextOf : Result → Option State
  | .next s => some s
  | .fault _ => none
  | .refused _ => none

/-- What one step leaves, seen through `f`. -/
def after {α : Type} (s : State) (f : State → α) : Option α := (nextOf (step s)).map f

/-! ## WellFormed refuses -/

theorem test_operand_above_99_refused :
    [Instr.read 100, .write 100, .load 100, .store 100, .add 100, .subtract 100, .divide 100, .multiply 100, .branch 100,
      .branchneg 100, .branchzero 100, .halt 100].all (fun i => !i.wellFormed) = true := by decide

theorem test_operand_below_0_refused :
    [Instr.read (-1), .write (-1), .load (-1), .store (-1), .add (-1), .subtract (-1), .divide (-1), .multiply (-1),
      .branch (-1), .branchneg (-1), .branchzero (-1), .halt (-1)].all (fun i => !i.wellFormed) = true := by decide

theorem test_legal_word_is_no_illegal_instruction :
    (Instr.illegal 1000).wellFormed = false ∧ (Instr.illegal 4399).wellFormed = false ∧
      (Instr.illegal 999).wellFormed = true := by decide

/-! ## Decoding: words written from R65's table, digit by digit (operation code, operand) -/

theorem test_decode_read : decode 1007 = .read 7 ∧ decode 1099 = .read 99 := by decide
theorem test_decode_write : decode 1109 = .write 9 := by decide
theorem test_decode_load : decode 2005 = .load 5 := by decide
theorem test_decode_store : decode 2109 = .store 9 := by decide
theorem test_decode_add : decode 3008 = .add 8 := by decide
theorem test_decode_subtract : decode 3122 = .subtract 22 := by decide
theorem test_decode_divide : decode 3206 = .divide 6 := by decide
theorem test_decode_multiply : decode 3320 = .multiply 20 := by decide
theorem test_decode_branch : decode 4000 = .branch 0 := by decide
theorem test_decode_branchneg : decode 4102 = .branchneg 2 := by decide
theorem test_decode_branchzero : decode 4210 = .branchzero 10 := by decide
theorem test_decode_halt : decode 4300 = .halt 0 ∧ decode 4399 = .halt 99 := by decide

/-- 95_test_vectors.md 2.1, the UNKNOWN_OPCODE rows. -/
theorem test_decode_illegal :
    [0, 99, 999, 1200, 4400, 9999, 10000, 12345, 14300, -1, -100, -4300, -4301, -9999].all
      (fun w => decide (decode w = .illegal w)) = true := by decide

/-- 95_test_vectors.md 2.1: the fields of words outside four digits. -/
theorem test_fields_floored :
    (opcodeOf (-1), operandOf (-1)) = (-1, 99) ∧ (opcodeOf (-4301), operandOf (-4301)) = (-44, 99) ∧
      (opcodeOf (-9999), operandOf (-9999)) = (-100, 1) ∧ (opcodeOf 12345, operandOf 12345) = (123, 45) := by decide

theorem test_encode : encode (.divide 6) = 3206 ∧ encode (.halt 77) = 4377 ∧ encode (.illegal (-5)) = -5 := by decide

theorem test_table_word : decodeTableWord 16 4102 = some (.branchneg 2) := by decide

/-! ## Floored division (R10, R96) -/

theorem test_fdiv_signs :
    fdiv 7 2 = 3 ∧ fdiv (-7) 2 = -4 ∧ fdiv 7 (-2) = -4 ∧ fdiv (-7) (-2) = 3 ∧ fdiv 6 (-3) = -2 ∧ fdiv (-10000) 3 = -3334 := by
  decide

/-! ## Instructions, one step each -/

/-- V-F1 and R89. -/
theorem test_load : after (core 5 3 [(5, 2010), (10, -4)]) (fun t => (t.acc, t.ir, t.opc, t.opd, t.pc)) =
    some (-4, 2010, 20, 10, 6) := by decide

/-- V-F2: the last address. -/
theorem test_load_at_99 : after (core 99 3 [(0, 7), (99, 2000)]) (fun t => (t.acc, t.pc, t.rs)) =
    some (7, 100, .running) := by decide

/-- V-LS3. -/
theorem test_store : after (core 0 (-8) [(0, 2150)]) (fun t => (t.word 50, t.acc, t.mem)) =
    some (-8, -8, [(0, 2150), (50, -8)]) := by decide

/-- V-LS5: a STORE to its own address; and a stored 0 leaves the list. -/
theorem test_store_own_address : after (core 5 0 [(5, 2105), (6, 4300)]) (fun t => (t.ir, t.mem, t.pc)) =
    some (2105, [(6, 4300)], 6) := by decide

/-- V-A2. -/
theorem test_add : after (core 0 9999 [(0, 3009), (9, 1)]) State.acc = some 10000 := by decide

/-- V-A5. -/
theorem test_subtract : after (core 0 (-9999) [(0, 3109), (9, 1)]) State.acc = some (-10000) := by decide

/-- V-A8. -/
theorem test_multiply : after (core 0 (-3) [(0, 3309), (9, 4)]) State.acc = some (-12) := by decide

/-- V-A13. -/
theorem test_divide : after (core 0 7 [(0, 3209), (9, -2)]) (fun t => (t.acc, t.rs)) = some (-4, .running) := by decide

/-- V-A22. -/
theorem test_divide_by_zero : after (core 1 10 [(1, 3206)]) (fun t => (t.acc, t.rs, t.hc, t.pc, t.hist)) =
    some (10, .halted, .divideByZero, 2, [.status .divideByZero]) := by decide

/-- V-C1. -/
theorem test_branch : after (core 10 1 [(10, 4055)]) State.pc = some 55 := by decide

/-- V-C3 and V-C4. -/
theorem test_branchneg : after (core 10 (-1) [(10, 4155)]) State.pc = some 55 ∧
    after (core 10 0 [(10, 4155)]) State.pc = some 11 := by decide

/-- V-C7 and V-C8. -/
theorem test_branchzero : after (core 10 0 [(10, 4255)]) State.pc = some 55 ∧
    after (core 10 (-1) [(10, 4255)]) State.pc = some 11 := by decide

/-- V-C11. -/
theorem test_halt : after (core 10 5 [(10, 4377)]) (fun t => (t.pc, t.rs, t.hc, t.acc, t.hist)) =
    some (11, .halted, .halt, 5, [.status .halt]) := by decide

/-- V-F4. -/
theorem test_illegal : after (core 0 0 []) (fun t => (t.ir, t.opc, t.opd, t.pc, t.hc)) =
    some (0, 0, 0, 1, .unknownOpcode) := by decide

/-- V-IO7. -/
theorem test_write : after (core 0 9 [(0, 1105), (5, -7)]) (fun t => (t.acc, t.pc, t.hist)) =
    some (9, 1, [.out 5 (-7)]) := by decide

/-- V-IO1. -/
theorem test_read_issue : after (core 0 0 [(0, 1042)]) (fun t => (t.pend, t.pc, t.ir, t.hist)) =
    some (some 42, 1, 1042, [.inReq 42]) := by decide

/-- V-IO2. -/
theorem test_read_completion :
    after { core 1 0 [(0, 1042)] with pend := some 42, script := [.host (.inData (-12345))] }
      (fun t => (t.word 42, t.pend, t.hist, t.pc)) = some (-12345, none, [.inData (-12345)], 1) := by decide

/-- V-F3. -/
theorem test_fetch_at_100 : after { core 100 3 [] with ir := 2000, opc := 20 } (fun t => (t.pc, t.ir, t.opc, t.acc, t.hc)) =
    some (100, 2000, 20, 3, .outOfBounds) := by decide

/-! ## Host moves -/

/-- V-LD2: a shorter load leaves the words beyond it. -/
theorem test_load_shorter :
    after { State.reset with mem := [(0, 1007), (1, 1008), (2, 2007)], script := [.host (.load [5])] }
      (fun t => (t.mem, t.hist)) = some ([(0, 5), (1, 1008), (2, 2007)], [.load [5], .loadAck .ok]) := by decide

/-- V-LD3. -/
theorem test_load_of_101_words :
    after { State.reset with mem := [(0, 1007)], script := [.host (.load (List.replicate 101 1))] }
      (fun t => (t.mem, t.rs, t.hist.getLast?)) = some ([], .ready, some (.loadAck .loadError)) := by decide

/-- V-LD8: a load is not admitted while the core runs, which goes on. -/
theorem test_load_not_admitted_running :
    after { core 10 1 [(10, 4055)] with script := [.host (.load [5])] } (fun t => (t.pc, t.script, t.hist)) =
      some (55, [.host (.load [5])], []) := by decide

/-- V-RUN1 and V-X6. -/
theorem test_run : after { State.reset with script := [.host .run] } State.rs = some .running ∧
    after { core 2 0 [] with rs := .halted, hc := .divideByZero, script := [.host .run] } (fun t => (t.rs, t.hc)) =
      some (.halted, .divideByZero) := by decide

/-- V-X5. -/
theorem test_reset_from_halted :
    after { core 2 7 [(3, 4)] with rs := .halted, hc := .halt, hist := [.status .halt], script := [.host .reset] } id =
      some { State.reset with hist := [.status .halt, .reset] } := by decide

/-- V-X7. -/
theorem test_dump_in_halted :
    after { core 2 10 [(1, 3206)] with rs := .halted, hc := .divideByZero, script := [.host .dumpReq] }
      (fun t => (t.rs, t.hist.length)) = some (.halted, 2) := by decide

/-- R73: no step for the core in `Ready`, in `Halted` and while a READ waits. -/
theorem test_no_step : step State.reset = .fault .notStarted ∧
    step { State.reset with rs := .halted } = .fault .runEnded ∧
    step { core 1 0 [] with pend := some 42 } = .fault .awaitingInput := ⟨rfl, rfl, rfl⟩

/-- A placed word is the next to run, from reset and from a `pc` outside memory. -/
theorem test_with_fetch_word : after (State.reset.withFetchWord 16 4055) State.pc = some 55 ∧
    after (State.withFetchWord { State.reset with pc := 100 } 16 4377) (fun t => (t.pc, t.hc)) = some (1, .halt) := by decide

/-- A realisation that holds up to 9999 stops at 10000, and goes on below it. -/
theorem test_finite_step :
    finiteStep 9999 (core 0 9999 [(0, 3009), (9, 1)]) = .fault .beyondRealisation ∧
    (nextOf (finiteStep 9999 (core 0 9998 [(0, 3009), (9, 1)]))).map State.acc = some 9999 := ⟨rfl, rfl⟩

/-- `PEND` and every word count: the bound 99 holds the address 99 and the word −99 and no more. -/
theorem test_within_bound :
    withinBound 99 { core 0 0 [(0, 99), (99, -99)] with pend := some 99 } = true ∧
    withinBound 98 { core 0 0 [] with pend := some 99 } = false ∧ withinBound 98 (core 0 0 [(99, -99)]) = false := by decide

/-! ## Witnesses: the hypotheses of each statement are met by a concrete state, at boundary values -/

theorem witness_DecodeOfEncodeIsIdentity :
    (Instr.read 0).WellFormed ∧ (Instr.halt 99).WellFormed ∧ (Instr.illegal (-1)).WellFormed := by decide

theorem witness_OpcodeSelectsInstruction :
    (1000 : Int) = 100 * 10 + 0 ∧ InMem 0 ∧ (4399 : Int) = 100 * 43 + 99 ∧ InMem 99 ∧ (-1 : Int) = 100 * (-1) + 99 := by decide

theorem witness_FetchLatchesFourRegisters : InMem (core 0 0 []).pc ∧ InMem (core 99 0 []).pc := by decide

/-- The core's turn by all three roads: an empty script, a `core` entry, a host event not admitted. -/
theorem witness_StepRunsDecodedInstruction :
    ((core 0 0 []).CoreTurn ∧ (core 0 0 []).CoreEnabled ∧ InMem (core 0 0 []).pc) ∧
    (State.CoreTurn { core 99 0 [] with script := [.core] } ∧ InMem (core 99 0 []).pc) ∧
    State.CoreTurn { core 0 0 [] with script := [.host (.load [])] } := by decide

theorem witness_FetchOutsideMemoryHalts :
    (core 100 0 []).CoreTurn ∧ (core 100 0 []).CoreEnabled ∧ ¬ InMem (core 100 0 []).pc ∧ ¬ InMem (core (-1) 0 []).pc := by
  decide

theorem witness_CoreStepsExactlyWhenEnabled :
    State.reset.CoreTurn ∧ State.reset.rs = .ready ∧ State.CoreTurn { State.reset with rs := .halted } ∧
    State.CoreTurn { core 1 0 [] with pend := some 0 } ∧ ({ core 1 0 [] with pend := some 0 } : State).pend ≠ none := by decide

theorem witness_StepIsWholeStep : (core 0 0 []).CoreTurn ∧ (core 0 0 []).CoreEnabled := by decide

/-- One state for each clause: a taken branch at the last address, a READ's completion, a fetch fault. -/
theorem witness_InstructionCounterLaw :
    ((core 99 0 [(99, 4299)]).CoreTurn ∧ (core 99 0 [(99, 4299)]).CoreEnabled ∧ InMem (core 99 0 [(99, 4299)]).pc ∧
      (core 99 0 [(99, 4299)]).word 99 = 100 * 42 + 99) ∧
    State.Waiting { core 1 0 [] with pend := some 99, script := [.host (.inData 5)] } ∧
    ((core 100 0 []).CoreTurn ∧ ¬ InMem (core 100 0 []).pc) := by decide

theorem witness_ReadIssuesAndWaits :
    (core 1 0 []).rs = .running ∧ State.CoreTurn { core 1 0 [] with pend := some 0, hist := [.inReq 0] } := by decide

theorem witness_InputCompletesRead :
    (core 1 0 []).rs = .running ∧ ({ core 1 0 [] with pend := some 99 } : State).pend = some 99 ∧ InMem 99 ∧ InMem 0 ∧
    (core 1 0 [(99, 7)]).mem.wf = true ∧
    ({ core 1 0 [] with script := [.host (.inData (-1))] } : State).script = .host (.inData (-1)) :: [] := by decide

/-- For WriteEmitsWord, LoadCopiesWord and ArithmeticIsExact. -/
theorem witness_operands_in_memory : InMem 0 ∧ InMem 99 := by decide

theorem witness_StoreWritesOneWord : InMem 99 ∧ (core 0 5 [(0, 2199), (99, -1)]).mem.wf = true := by decide

/-- The STORE at 0 writes the next address, 1. -/
theorem witness_StoreIsSeenByNextFetch :
    (core 0 4300 [(0, 2101)]).CoreTurn ∧ (core 0 4300 [(0, 2101)]).CoreEnabled ∧ InMem 0 ∧ InMem 1 ∧
    (core 0 4300 [(0, 2101)]).mem.wf = true ∧ (core 0 4300 [(0, 2101)]).word 0 = 2100 + 1 ∧
    after (core 0 4300 [(0, 2101)]) State.pc = some 1 := by decide

/-- A witness for each clause, and the two addresses at the ends of memory. -/
theorem witness_DivideFloorsOrHalts :
    InMem 0 ∧ InMem 99 ∧ (core 0 7 [(99, -2)]).word 99 ≠ 0 ∧ (core 0 7 [(0, 1)]).word 0 ≠ 0 ∧ (core 0 7 []).word 99 = 0 := by
  decide

theorem witness_IllegalWordHalts :
    (Instr.illegal 999).WellFormed ∧ (Instr.illegal 1200).WellFormed ∧ (Instr.illegal (-4300)).WellFormed := by decide

theorem witness_OperandOutsideMemoryHalts : ¬ InMem 100 ∧ ¬ InMem (-1) := by decide

theorem witness_FaultsArePrecise :
    ((core 0 0 []).CoreTurn ∧ (core 0 0 []).CoreEnabled ∧ InMem (core 0 0 []).pc ∧
      ∃ t, step (core 0 0 []) = .next t ∧ t.rs = .halted) ∧
    (¬ InMem (core 100 0 []).pc ∧ ∃ t, step (core 100 0 []) = .next t ∧ t.rs = .halted) :=
  ⟨⟨by decide, by decide, by decide, _, rfl, rfl⟩, by decide, _, rfl, rfl⟩

/-- One word for each clause: HALT, an illegal word next to the legal range, DIVIDE by 0, DIVIDE by another word. -/
theorem witness_HaltCauseOfStep :
    (core 99 0 [(99, 4399)]).word 99 = 100 * 43 + 99 ∧ (core 0 0 [(0, 4400)]).word 0 = 100 * 44 + 0 ∧
    ((core 0 0 [(0, 3201)]).word 0 = 100 * 32 + 1 ∧ (core 0 0 [(0, 3201)]).word 1 = 0) ∧
    ((core 0 0 [(0, 3200)]).word 0 = 100 * 32 + 0 ∧ (core 0 0 [(0, 3200)]).word 0 ≠ 0) ∧
    (core 0 0 []).CoreTurn ∧ (core 0 0 []).CoreEnabled ∧ ¬ InMem (core 100 0 []).pc := by decide

/-- One step for each way `RS` moves. -/
theorem witness_RunStateMovesOnlyAsListed :
    (∃ t, step { State.reset with script := [.host .run] } = .next t ∧ t.rs ≠ .ready) ∧
    (∃ t, step (core 100 0 []) = .next t ∧ t.rs ≠ .running) ∧
    (∃ t, step { core 1 0 [] with script := [.host .reset] } = .next t ∧ t.rs ≠ .running) :=
  ⟨⟨_, rfl, by decide⟩, ⟨_, rfl, by decide⟩, ⟨_, rfl, by decide⟩⟩

theorem witness_HaltCauseWrittenOnlyByHaltOrReset :
    (∃ t, step (core 0 0 [(0, 4300)]) = .next t ∧ t.hc ≠ .none) ∧
    (∃ t, step { core 1 0 [] with rs := .halted, hc := .halt, script := [.host .reset] } = .next t ∧ t.hc ≠ .halt) :=
  ⟨⟨_, rfl, by decide⟩, ⟨_, rfl, by decide⟩⟩

theorem witness_AccWrittenOnlyByItsInstructions :
    (∃ t, step (core 0 1 [(0, 3300)]) = .next t ∧ t.acc ≠ 1) ∧
    (∃ t, step { core 0 1 [] with script := [.host .reset] } = .next t ∧ t.acc ≠ 1) :=
  ⟨⟨_, rfl, by decide⟩, ⟨_, rfl, by decide⟩⟩

/-- One step for each writer of memory. -/
theorem witness_WordWrittenOnlyByItsWriters :
    (∃ t, step (core 0 1 [(0, 2199)]) = .next t ∧ t.word 99 ≠ 0) ∧
    (∃ t, step { core 1 0 [] with pend := some 0, script := [.host (.inData 5)] } = .next t ∧ t.word 0 ≠ 0) ∧
    (∃ t, step { State.reset with script := [.host (.load [5])] } = .next t ∧ t.word 0 ≠ 0) ∧
    (∃ t, step { State.reset with mem := [(99, 5)], script := [.host .loadAbort] } = .next t ∧ t.word 99 ≠ 5) ∧
    (∃ t, step { core 0 0 [(0, 5)] with script := [.host .reset] } = .next t ∧ t.word 0 ≠ 5) :=
  ⟨⟨_, rfl, by decide⟩, ⟨_, rfl, by decide⟩, ⟨_, rfl, by decide⟩, ⟨_, rfl, by decide⟩, ⟨_, rfl, by decide⟩⟩

theorem witness_WaitKeepsState :
    State.Waiting { core 1 0 [] with pend := some 0, script := [.host .run] } ∧
    (∃ t, step { core 1 0 [] with pend := some 0, script := [.host .run] } = .next t) ∧
    ({ core 1 0 [] with pend := some 0, script := [.host .run] } : State).script.head? ≠ some (.host .reset) ∧
    ∀ v, ({ core 1 0 [] with pend := some 0, script := [.host .run] } : State).script.head? ≠ some (.host (.inData v)) :=
  ⟨by decide, ⟨_, rfl⟩, by decide, fun v h => by cases h⟩

theorem witness_HaltedStaysHalted :
    ({ core 1 0 [] with rs := .halted, script := [.host .run, .host .dumpReq] } : State).rs = .halted ∧
    Turn.host .reset ∉ ({ core 1 0 [] with rs := .halted, script := [.host .run, .host .dumpReq] } : State).script ∧
    ∃ t, Host.Core.run Sys2Proof.core 2 { core 1 0 [] with rs := .halted, script := [.host .run, .host .dumpReq] } = .next t :=
  ⟨rfl, by decide, _, rfl⟩

/-- For HostMoveTakenExactlyWhenAdmitted: every event of the table in a state that admits it, and the four that some state does not. -/
theorem witness_HostMoveTakenExactlyWhenAdmitted :
    [HostEvent.reset, .run, .load [1], .loadAbort, .dumpReq].all (fun e => admitted e State.reset) = true ∧
    admitted (.inData 3) { core 1 0 [] with pend := some 0 } = true ∧
    [HostEvent.load [1], .loadAbort, .inData 3, .dumpReq].all (fun e => !admitted e (core 1 0 [])) = true := by decide

theorem witness_LoadWritesItsWords :
    State.reset.rs = .ready ∧ (List.replicate 100 (5 : Int)).length ≤ 100 ∧ ([] : List Int).length ≤ 100 ∧
    State.reset.mem.wf = true ∧ InMem 99 := by decide

theorem witness_RejectedLoadZeroesMemory :
    State.reset.rs = .ready ∧ 100 < (List.replicate 101 (5 : Int)).length := by decide

theorem witness_LoadThenDumpReproducesProgram : (List.replicate 100 (5 : Int)).length ≤ 100 := by decide

/-- For RunStartsOnlyFromReady and ResetEventRestoresResetState: a state of each run state offers the event. -/
theorem witness_run_and_reset_offered :
    (∀ rs : RunState, rs = .ready ∨ rs = .running ∨ rs = .halted →
      ({ State.reset with rs := rs, script := [.host .run] } : State).script = .host .run :: []) ∧
    ({ core 1 5 [] with script := [.host .reset] } : State).script = .host .reset :: [] :=
  ⟨fun _ _ => rfl, rfl⟩

theorem witness_DumpShowsStateUnchanged :
    State.reset.rs ≠ .running ∧ ({ State.reset with rs := .halted } : State).rs ≠ .running ∧
    ({ State.reset with script := [.host .dumpReq] } : State).script = .host .dumpReq :: [] := by decide

theorem witness_HistoryOnlyGrows : ∃ t, step (core 0 0 [(0, 1100)]) = .next t := ⟨_, rfl⟩

theorem witness_CanonicalMemoriesThatReadAlikeAreEqual :
    (core 0 0 [(0, 5), (99, -1)]).mem.wf = true ∧ (core 1 2 [(0, 5), (99, -1)]).mem.wf = true ∧
    ∀ a, InMem a → (core 1 2 [(0, 5), (99, -1)]).word a = (core 0 0 [(0, 5), (99, -1)]).word a :=
  ⟨by decide, by decide, fun _ _ => rfl⟩

/-- A witness for each clause: a step within the bound, one beyond it, and a state with no step. -/
theorem witness_FiniteRealisationAgreesWithinBound :
    (∃ t, step (core 0 5 [(0, 2101)]) = .next t ∧ finiteStep 2101 (core 0 5 [(0, 2101)]) = .next t) ∧
    (∃ t, step (core 0 5 [(0, 2101)]) = .next t ∧ finiteStep 2100 (core 0 5 [(0, 2101)]) = .fault .beyondRealisation) ∧
    step State.reset = .fault .notStarted ∧ (core 0 5 [(0, 2101)]).CoreTurn ∧ (core 0 5 [(0, 2101)]).CoreEnabled :=
  ⟨⟨_, rfl, rfl⟩, ⟨_, rfl, rfl⟩, rfl, by decide, by decide⟩

theorem witness_StepKeepsInvariant :
    (core 99 3 [(99, 2000)]).Inv ∧ ∃ t, step (core 99 3 [(99, 2000)]) = .next t :=
  ⟨⟨by decide, by decide, by decide, by decide, fun _ h => (by cases h), by decide⟩, _, rfl⟩

theorem witness_StepKeepsOneStatusPerRun :
    (core 0 0 [(0, 4300)]).OneStatusPerRun ∧ (∃ t, step (core 0 0 [(0, 4300)]) = .next t ∧ t.rs = .halted) :=
  ⟨⟨fun h => (by cases h), fun _ => rfl⟩, _, rfl, rfl⟩

end Sys2Proof.Tests
end

section
/-! What each instruction does on an operand in memory, one equation per row of R65's table (40_cycle.md R76, R78). The state
on the right is written in the spec's named operations; the premise `InMem m` is what every decoded word meets (R61, R67). -/

namespace Sys2Proof.Machine

variable (m : Int) (s : State)

/-- READ's issue (R86). -/
theorem exec_read : exec (.read m) s = .next (emit (.inReq m) (setPend (some m) s)) := rfl

/-- BRANCH (R99). -/
theorem exec_branch : exec (.branch m) s = .next (setPc m s) := rfl

/-- BRANCHNEG (R100). -/
theorem exec_branchneg : exec (.branchneg m) s = .next (if s.acc < 0 then setPc m s else s) := by
  simp only [exec, execBranchneg, branchIf, accNegative_iff]

/-- BRANCHZERO (R101). -/
theorem exec_branchzero : exec (.branchzero m) s = .next (if s.acc = 0 then setPc m s else s) := by
  simp only [exec, execBranchzero, branchIf, accZero_iff]

/-- HALT (R102). -/
theorem exec_halt : exec (.halt m) s = .next (haltedWith .halt s) := rfl

/-- A word that selects no instruction (R76). -/
theorem exec_illegal (w : Int) : exec (.illegal w) s = .next (haltedWith .unknownOpcode s) := rfl

variable {m} (h : InMem m)
include h

/-- WRITE (R87). -/
theorem exec_write_inside : exec (.write m) s = .next (emit (.out m (s.word m)) s) := withOperand_inside h s _

/-- LOAD (R89). -/
theorem exec_load_inside : exec (.load m) s = .next (setAcc (s.word m) s) := withOperand_inside h s _

/-- STORE (R90). -/
theorem exec_store_inside : exec (.store m) s = .next (setWord m s.acc s) := toOperand_inside h s.acc s

/-- ADD (R91). -/
theorem exec_add_inside : exec (.add m) s = .next (setAcc (s.acc + s.word m) s) := aluToAcc_inside h .add s

/-- SUBTRACT (R92). -/
theorem exec_subtract_inside : exec (.subtract m) s = .next (setAcc (s.acc - s.word m) s) :=
  aluToAcc_inside h .subtract s

/-- MULTIPLY (R94). -/
theorem exec_multiply_inside : exec (.multiply m) s = .next (setAcc (s.acc * s.word m) s) :=
  aluToAcc_inside h .multiply s

/-- DIVIDE (R93), by whether the divisor is 0. -/
theorem exec_divide_inside : exec (.divide m) s =
    .next (if s.word m = 0 then haltedWith .divideByZero s else setAcc (fdiv s.acc (s.word m)) s) := by
  have e : exec (.divide m) s = _ := aluToAcc_inside h .divide s
  rw [e]
  by_cases z : s.word m = 0
  · simp only [alu, if_pos z]; rfl
  · simp only [alu, if_neg z]

end Sys2Proof.Machine
end

section
/-! The composed step is R78's `step()`: fetch, table lookup and execute against `wholeStep`. -/

namespace Sys2Proof.Machine

/-- The table lookup on the latched fields, executed, is R78's `case OPC of`, for every operation code. -/
theorem exec_lookup_eq_wholeExecute (w : Int) (t : State) (h : InMem t.opd) :
    exec (lookup t.opc t.opd w) t = .next (wholeExecute t) := by
  rcases lookup_cases t.opc t.opd w with ⟨q, e⟩ | ⟨q, e⟩ | ⟨q, e⟩ | ⟨q, e⟩ | ⟨q, e⟩ | ⟨q, e⟩ | ⟨q, e⟩ | ⟨q, e⟩ |
    ⟨q, e⟩ | ⟨q, e⟩ | ⟨q, e⟩ | ⟨q, e⟩ | ⟨q, e⟩ <;> rw [e]
  · simp [exec_read, wholeExecute, q, emit, setPend]
  · simp [exec_write_inside t h, wholeExecute, q, emit]
  · simp [exec_load_inside t h, wholeExecute, q, setAcc]
  · simp [exec_store_inside t h, wholeExecute, q]
  · simp [exec_add_inside t h, wholeExecute, q, setAcc]
  · simp [exec_subtract_inside t h, wholeExecute, q, setAcc]
  · simp [exec_divide_inside t h, wholeExecute, q, setAcc]
  · simp [exec_multiply_inside t h, wholeExecute, q, setAcc]
  · simp [exec_branch, wholeExecute, q, setPc]
  · simp [exec_branchneg, wholeExecute, q, setPc]
  · simp [exec_branchzero, wholeExecute, q, setPc]
  · simp [exec_halt, wholeExecute, q]
  · simp only [definedOpcodes, List.mem_cons, List.not_mem_nil, or_false, not_or] at q
    simp [exec_illegal, wholeExecute, q]

/-- The core's turn, where the core has a step, is R78's `step()`. -/
theorem step_eq_wholeStep {s : State} (ct : s.CoreTurn) (en : s.CoreEnabled) : step s = .next (wholeStep s) := by
  have e : step s = fetchExecute s.turnTaken := (step_coreTurn ct).trans (coreStep_enabled (s := s.turnTaken) en)
  by_cases i : InMem s.pc
  · have inside : ¬ (s.pc < 0 ∨ 99 < s.pc) := by omega
    rw [e, fetchExecute_inside (s := s.turnTaken) i, wholeStep, if_neg inside]
    exact exec_lookup_eq_wholeExecute (s.word s.pc) (fetched s) (operandOf_range _)
  · have outside : s.pc < 0 ∨ 99 < s.pc := by omega
    rw [e, fetchExecute_outside (s := s.turnTaken) i, wholeStep, if_pos outside, enterHalt_eq_haltedWith]

end Sys2Proof.Machine
end

section
/-! A finite realisation against the architecture (00_scope.md R8, 92_eei_decisions.md D2; log entry 9). -/

namespace Sys2Proof.Machine

/-- The bound check, register by register, and then over the pending address and the 100 words. -/
theorem withinBound_iff_fields (bound : Nat) (t : State) :
    withinBound bound t = true ↔
      |t.acc| ≤ (bound : Int) ∧ |t.pc| ≤ (bound : Int) ∧ |t.ir| ≤ (bound : Int) ∧ |t.opc| ≤ (bound : Int) ∧
      |t.opd| ≤ (bound : Int) ∧ (∀ a, t.pend = some a → |a| ≤ (bound : Int)) ∧
      ∀ a, InMem a → |t.word a| ≤ (bound : Int) := by
  have words : (∀ v, (∃ a, InMem a ∧ t.word a = v) → |v| ≤ (bound : Int)) ↔
      ∀ a, InMem a → |t.word a| ≤ (bound : Int) :=
    ⟨fun h a ha => h _ ⟨a, ha, rfl⟩, fun h _ ⟨a, ha, e⟩ => e ▸ h a ha⟩
  simp only [withinBound_iff, mem_storedValues, or_imp, forall_and, forall_eq, words]

/-- A realisation's step by the architecture's: within the bound the same next state, beyond it the named fault. -/
theorem finiteStep_of_step_next (bound : Nat) {s t : State} (h : step s = .next t) :
    finiteStep bound s = if withinBound bound t then .next t else .fault .beyondRealisation := by
  simp only [finiteStep, h]

/-- Where the architecture is stuck the realisation is, with the same fault. -/
theorem finiteStep_of_step_fault (bound : Nat) {s : State} {r : Fault} (h : step s = .fault r) :
    finiteStep bound s = .fault r := by
  simp only [finiteStep, h]

/-- A realisation's next state is the architecture's, and within the bound. -/
theorem finiteStep_next_iff (bound : Nat) (s t : State) :
    finiteStep bound s = .next t ↔ step s = .next t ∧ withinBound bound t = true := by
  constructor
  · intro h
    unfold finiteStep at h
    split at h
    · next u hu =>
      split at h
      · next w => cases h; exact ⟨hu, w⟩
      · cases h
    · cases h
    · cases h
  · rintro ⟨h, w⟩
    rw [finiteStep_of_step_next bound h, if_pos w]

/-- A next state of the architecture is answered as it is, or the realisation faults by name. -/
theorem finiteStep_next_or_beyond (bound : Nat) {s t : State} (h : step s = .next t) :
    finiteStep bound s = .next t ∨ finiteStep bound s = .fault .beyondRealisation := by
  rw [finiteStep_of_step_next bound h]
  exact ite_eq_or_eq _ _ _

/-- Settles O43: clause by clause from the equations of `finiteStep`; at the core's turn the architecture's next state is
R78's by `step_eq_wholeStep`. -/
theorem finiteRealisationAgreesWithinBound : Obligations.FiniteRealisationAgreesWithinBound := by
  intro bound s
  refine ⟨fun t => ?_, fun t h other => ?_, fun r h => ?_, fun ct en => ?_⟩
  · rw [finiteStep_next_iff, withinBound_iff_fields]
  · exact (finiteStep_next_or_beyond bound h).resolve_left other
  · exact finiteStep_of_step_fault bound h
  · exact finiteStep_next_or_beyond bound (step_eq_wholeStep ct en)

end Sys2Proof.Machine
end

section
/-! What one step can do, agent by agent: an admitted host move with the state it leaves (10_state.md R36), a decoded
instruction's `exec`, or the halt of a fetch outside memory. Each invariant and each writer rule below is a case split on it. -/

namespace Sys2Proof.Machine

/-- The states an admitted host event can leave, with what admission says about the state it found. -/
inductive HostEffect (s : State) : HostEvent → State → Prop
  | reset : HostEffect s .reset { State.reset with hist := s.hist ++ [.reset], script := s.script }
  | run : HostEffect s .run
      { s with rs := if s.rs = .ready then .running else s.rs, hist := s.hist ++ [.run] }
  | loadAbort (ready : s.rs = .ready) : HostEffect s .loadAbort
      { s with mem := [], hist := s.hist ++ [.loadAbort, .loadAck .loadError] }
  | loadFits (ws : List Int) (ready : s.rs = .ready) (fits : ws.length ≤ 100) : HostEffect s (.load ws)
      { s with mem := s.mem.writeFrom 0 ws, hist := s.hist ++ [.load ws, .loadAck .ok] }
  | loadOver (ws : List Int) (ready : s.rs = .ready) : HostEffect s (.load ws)
      { s with mem := [], hist := s.hist ++ [.load ws, .loadAck .loadError] }
  | inputInside (v a : Int) (running : s.rs = .running) (waits : s.pend = some a) (inside : InMem a) :
      HostEffect s (.inData v) { setWord a v s with pend := none, hist := s.hist ++ [.inData v] }
  | inputOutside (v a : Int) (running : s.rs = .running) (waits : s.pend = some a) (outside : ¬ InMem a) :
      HostEffect s (.inData v)
        { s with rs := .halted, hc := .outOfBounds, hist := s.hist ++ [.inData v, .status .outOfBounds] }
  | dumpReq : HostEffect s .dumpReq { s with hist := s.hist ++ [.dumpReq, .dump (snapshot s)] }

theorem hostMove_effect {e : HostEvent} {s : State} (ha : admitted e s = true) : HostEffect s e (hostMove e s) := by
  cases e with
  | reset => rw [hostMove_reset]; exact .reset
  | run => rw [hostMove_run]; exact .run
  | dumpReq => rw [hostMove_dumpReq]; exact .dumpReq
  | loadAbort => rw [hostMove_loadAbort]; exact .loadAbort ((admitted_loadAbort s).1 ha)
  | load ws =>
    have ready := (admitted_load ws s).1 ha
    by_cases fits : ws.length ≤ 100
    · rw [hostMove_load_fits fits]; exact .loadFits ws ready fits
    · rw [hostMove_load_over (by omega)]; exact .loadOver ws ready
  | inData v =>
    obtain ⟨running, waiting⟩ := (admitted_inData v s).1 ha
    obtain ⟨a, waits⟩ := Option.isSome_iff_exists.1 waiting
    by_cases h : InMem a
    · rw [hostMove_inData_inside h v s waits]; exact .inputInside v a running waits h
    · rw [hostMove_inData_outside h v s waits]; exact .inputOutside v a running waits h

/-- A host event is recorded first, before the events it causes (R35). -/
theorem HostEffect.hist_append {e : HostEvent} {s t : State} (h : HostEffect s e t) :
    ∃ es, t.hist = s.hist ++ e.toEvent :: es := by
  cases h <;> exact ⟨_, rfl⟩

/-- A meaning appends to the history, if it does anything to it. -/
theorem ExecEffect.hist_append {i : Instr} {s t : State} (h : ExecEffect i s t) : ∃ es, t.hist = s.hist ++ es := by
  cases h with
  | readIssue | output | halts => exact ⟨_, rfl⟩
  | acc | word | jump | fall => exact ⟨[], (List.append_nil _).symm⟩

/-- The inversion of a step, down to the host event's effect and the instruction's `exec`. -/
theorem step_cases {s t : State} (h : step s = .next t) :
    (∃ e rest, s.script = .host e :: rest ∧ admitted e s = true ∧ HostEffect { s with script := rest } e t) ∨
    (s.CoreEnabled ∧ InMem s.pc ∧ exec (decode (s.word s.pc)) (fetched s) = .next t) ∨
    (s.CoreEnabled ∧ t = haltedWith .outOfBounds s.turnTaken) := by
  cases step_next h with
  | host e rest hs ha => exact .inl ⟨e, rest, hs, ha, hostMove_effect (s := { s with script := rest }) ha⟩
  | core t en ct fe =>
    by_cases i : InMem s.pc
    · rw [fetchExecute_inside (s := s.turnTaken) i] at fe
      exact .inr (.inl ⟨en, i, fe⟩)
    · rw [fetchExecute_outside (s := s.turnTaken) i] at fe
      injection fe with fe
      exact .inr (.inr ⟨en, fe.symm⟩)

end Sys2Proof.Machine
end

section
/-! The state invariant (10_state.md R24, R25, R27, R30, R31, 30_encoding.md R61) at reset and over every step. -/

namespace Sys2Proof.Machine

theorem operandInRange_iff (m : Int) : operandInRange m = true ↔ InMem m := by
  simp [operandInRange]

/-- The decoder answers well-formed instructions only (R61, R67): the operand is the word modulo 100, and an illegal word's
operation code is none of the table's. -/
theorem decode_wellFormed (w : Int) : (decode w).WellFormed := by
  have operand : operandInRange (operandOf w) = true := (operandInRange_iff _).2 (operandOf_range w)
  rw [decode_eq_lookup]
  rcases lookup_cases (opcodeOf w) (operandOf w) w with ⟨-, e⟩ | ⟨-, e⟩ | ⟨-, e⟩ | ⟨-, e⟩ | ⟨-, e⟩ | ⟨-, e⟩ | ⟨-, e⟩ |
    ⟨-, e⟩ | ⟨-, e⟩ | ⟨-, e⟩ | ⟨-, e⟩ | ⟨-, e⟩ | ⟨q, e⟩
  all_goals rw [e]
  iterate 12 exact operand
  · simpa [Instr.WellFormed, Instr.wellFormed, selectsNone] using q

variable {s : State}

/-- The invariant looks at neither `ACC`, the history nor the script, and at memory only for its canonical form. -/
theorem State.Inv.withMemory (i : s.Inv) {m : Memory} (wf : m.wf = true) (v : Int) (h : List Event) (sc : List Turn) :
    ({ s with acc := v, mem := m, hist := h, script := sc } : State).Inv :=
  ⟨wf, i.pcRange, i.latchLaw, i.opdRange, i.pendLaw, i.causeLaw⟩

theorem State.Inv.withRecord (i : s.Inv) (v : Int) (h : List Event) (sc : List Turn) :
    ({ s with acc := v, hist := h, script := sc } : State).Inv :=
  i.withMemory i.memCanonical v h sc

theorem State.Inv.withPend (i : s.Inv) {p : Option Int} (h : ∀ a, p = some a → InMem a ∧ s.rs = .running) :
    (setPend p s).Inv :=
  ⟨i.memCanonical, i.pcRange, i.latchLaw, i.opdRange, h, i.causeLaw⟩

theorem State.Inv.withPc (i : s.Inv) {a : Int} (h : InMem a) : (setPc a s).Inv :=
  ⟨i.memCanonical, ⟨h.1, by rw [setPc_pc]; omega⟩, i.latchLaw, i.opdRange, i.pendLaw, i.causeLaw⟩

/-- `Run` starts only a `Ready` core, where no READ waits and `HC` is `NONE`. -/
theorem State.Inv.afterRun (i : s.Inv) : ({ s with rs := if s.rs = .ready then .running else s.rs } : State).Inv where
  memCanonical := i.memCanonical
  pcRange := i.pcRange
  latchLaw := i.latchLaw
  opdRange := i.opdRange
  pendLaw a p := by
    obtain ⟨ha, running⟩ := i.pendLaw a p
    exact ⟨ha, by simp [running]⟩
  causeLaw := i.causeLaw.trans (by by_cases r : s.rs = .ready <;> simp [r])

/-- The halt entry needs that no READ waits. -/
theorem State.Inv.afterHalt (i : s.Inv) (p : s.pend = none) {c : HaltCause} (hc : c ≠ .none) : (enterHalt c s).Inv where
  memCanonical := i.memCanonical
  pcRange := i.pcRange
  latchLaw := i.latchLaw
  opdRange := i.opdRange
  pendLaw a e := by simp [p] at e
  causeLaw := by simp [hc]

/-- A fetch from memory moves `pc` to at most 100, and its latches split the word. -/
theorem State.Inv.afterFetch (i : s.Inv) (h : InMem s.pc) : (fetched s).Inv where
  memCanonical := i.memCanonical
  pcRange := by rw [fetched_pc]; omega
  latchLaw := word_split _
  opdRange := operandOf_range _
  pendLaw := i.pendLaw
  causeLaw := i.causeLaw

/-- Every meaning of a well-formed instruction keeps the invariant on an enabled core. -/
theorem ExecEffect.keeps_inv {i : Instr} {t : State} (h : ExecEffect i s t) (wf : i.WellFormed) (inv : s.Inv)
    (en : s.CoreEnabled) : t.Inv := by
  cases h with
  | acc v m => exact inv.withRecord v _ _
  | word m hm => exact inv.withMemory (setWord_wf m s.acc s hm inv.memCanonical) _ _ _
  | jump m hi =>
    have hm : InMem m := by rcases hi with rfl | rfl | rfl <;> exact (operandInRange_iff m).1 wf
    exact inv.withPc hm
  | fall => exact inv
  | readIssue m hi =>
    subst hi
    have waits : ∀ a, some m = some a → InMem a ∧ s.rs = .running := by
      rintro a ⟨⟩
      exact ⟨(operandInRange_iff m).1 wf, en.1⟩
    exact (inv.withPend waits).withRecord _ _ _
  | output => exact inv.withRecord _ _ _
  | halts c hc => exact inv.afterHalt en.2 hc

/-- The reset values satisfy the invariant (R37). -/
theorem reset_inv : State.reset.Inv where
  memCanonical := rfl
  pcRange := by decide
  latchLaw := rfl
  opdRange := by decide
  pendLaw _ p := by cases p
  causeLaw := by decide

/-- Every host event keeps the invariant; a READ never waits on an address outside memory. -/
theorem HostEffect.keeps_inv {e : HostEvent} {t : State} (h : HostEffect s e t) (inv : s.Inv) : t.Inv := by
  cases h with
  | reset => exact reset_inv.withRecord _ _ _
  | run => exact inv.afterRun.withRecord _ _ _
  | loadAbort | loadOver => exact inv.withMemory Memory.wf_zeroed _ _ _
  | loadFits ws _ fits => exact inv.withMemory (Memory.wf_writeFrom (by omega) inv.memCanonical) _ _ _
  | inputInside v a _ _ inside =>
    have stored : (setWord a v s).Inv := inv.withMemory (setWord_wf a v s inside inv.memCanonical) _ _ _
    exact (stored.withPend (p := none) (by simp)).withRecord _ _ _
  | inputOutside v a _ waits outside => exact absurd (inv.pendLaw a waits).1 outside
  | dumpReq => exact inv.withRecord _ _ _

/-- Settles O45: the invariant through each of the three things a step can do. -/
theorem stepKeepsInvariant : Obligations.StepKeepsInvariant := by
  intro s t inv h
  rcases step_cases h with ⟨e, rest, -, -, he⟩ | ⟨en, inside, ex⟩ | ⟨en, rfl⟩
  · exact he.keeps_inv (inv.withRecord _ _ rest)
  · exact (exec_next ex).keeps_inv (decode_wellFormed _) (inv.afterFetch inside) en
  · exact (inv.afterHalt en.2 (by decide)).withRecord _ _ _

/-- Settles O44: nothing is recorded at reset, so no `Status` either. -/
theorem resetMeetsInvariants : Obligations.ResetMeetsInvariants :=
  ⟨reset_inv, ⟨nofun, fun _ => rfl⟩⟩

end Sys2Proof.Machine
end

section
/-! Who writes `HC`, `ACC` and a word of memory (10_state.md R21, R30, R32), and the history (R35, R36). -/

namespace Sys2Proof.Machine

/-- Settles O29: among the host's moves only `Reset` and an input for an address outside memory change `HC`, among the
meanings only the halt entry. -/
theorem haltCauseWrittenOnlyByHaltOrReset : Obligations.HaltCauseWrittenOnlyByHaltOrReset := by
  intro s t h changed
  rcases step_cases h with ⟨e, rest, hs, -, he⟩ | ⟨en, -, ex⟩ | ⟨en, rfl⟩
  · cases he with
    | reset => exact .inr ⟨rfl, by rw [hs]; rfl⟩
    | inputOutside v a running => exact .inl ⟨running, rfl, by simp, by simp⟩
    | run | loadAbort | loadFits | loadOver | inputInside | dumpReq => exact absurd rfl changed
  · cases exec_next ex with
    | halts c hc => exact .inl ⟨en.1, rfl, hc, by simp⟩
    | acc | word | jump | fall | readIssue | output => exact absurd rfl changed
  · exact .inl ⟨en.1, rfl, by simp, by simp⟩

/-- The meanings that write `ACC`: DIVIDE only by a divisor not 0, since it halts on 0 (R93). -/
theorem exec_changes_acc {i : Instr} {s t : State} (h : exec i s = .next t) (changed : t.acc ≠ s.acc) :
    ∃ m, InMem m ∧ (i = .load m ∨ i = .add m ∨ i = .subtract m ∨ i = .multiply m ∨ (i = .divide m ∧ s.word m ≠ 0)) := by
  cases exec_next h with
  | acc v m hm hi =>
    refine ⟨m, hm, ?_⟩
    rcases hi with rfl | rfl | rfl | rfl | rfl
    · simp
    · simp
    · simp
    · have nonzero : s.word m ≠ 0 := by
        intro z
        rw [exec_divide_inside s hm, if_pos z] at h
        injection h with h
        exact changed (by rw [← h, haltedWith_acc])
      simp [nonzero]
    · simp
  | word | jump | fall | readIssue | output | halts => exact absurd rfl changed

/-- Settles O30: the host writes `ACC` by `Reset` alone, the core by `exec_changes_acc`. -/
theorem accWrittenOnlyByItsInstructions : Obligations.AccWrittenOnlyByItsInstructions := by
  intro s t h changed
  rcases step_cases h with ⟨e, rest, hs, -, he⟩ | ⟨en, -, ex⟩ | ⟨-, rfl⟩
  · cases he with
    | reset => exact .inl (by rw [hs]; rfl)
    | run | loadAbort | loadFits | loadOver | inputInside | inputOutside | dumpReq => exact absurd rfl changed
  · exact .inr ⟨en, exec_changes_acc (s := fetched s) ex changed⟩
  · exact absurd rfl changed

/-- The one word that `M[m] <- v` can change is `M[m]`. -/
theorem eq_of_setWord_word_ne {m a v : Int} {s : State} (hm : InMem m) (ha : InMem a)
    (changed : (setWord m v s).word a ≠ s.word a) : a = m :=
  Decidable.by_contra fun other => changed (setWord_word_other m a v s hm.1 ha.1 other)

/-- Settles O31: each host event and each meaning either leaves memory alone or is one of the writers, and STORE and an
input change no word but their own. -/
theorem wordWrittenOnlyByItsWriters : Obligations.WordWrittenOnlyByItsWriters := by
  intro s t a ha h changed
  rcases step_cases h with ⟨e, rest, hs, -, he⟩ | ⟨en, -, ex⟩ | ⟨-, rfl⟩
  · have offered : s.script.head? = some (.host e) := by rw [hs]; rfl
    cases he with
    | reset => simp [offered]
    | loadAbort ready => simp [offered, show s.rs = .ready from ready]
    | loadFits ws ready | loadOver ws ready => simp [offered, show s.rs = .ready from ready]
    | inputInside v b running waits inside =>
      obtain rfl : a = b := eq_of_setWord_word_ne inside ha changed
      have waiting : s.Waiting := ⟨running, fun idle => by simp [idle] at waits⟩
      exact .inr (.inl ⟨waiting, waits, v, offered⟩)
    | run | inputOutside | dumpReq => exact absurd rfl changed
  · cases exec_next ex with
    | word m hm hi =>
      obtain rfl : a = m := eq_of_setWord_word_ne hm ha changed
      exact .inl ⟨en, hi⟩
    | acc | jump | fall | readIssue | output | halts => exact absurd rfl changed
  · exact absurd rfl changed

/-- Settles O41: both agents append to the history. -/
theorem historyOnlyGrows : Obligations.HistoryOnlyGrows := by
  intro s t h
  rcases step_cases h with ⟨e, rest, -, -, he⟩ | ⟨-, -, ex⟩ | ⟨-, rfl⟩
  · obtain ⟨es, hist⟩ := he.hist_append
    exact ⟨_, hist⟩
  · exact (exec_next ex).hist_append
  · exact ⟨_, rfl⟩

/-- An admitted host event leaves the script and is the next event of the history. -/
theorem step_takes_admitted {s : State} {e : HostEvent} {rest : List Turn} (hs : s.script = .host e :: rest)
    (ha : admitted e s = true) :
    ∃ t, step s = .next t ∧ t.script = rest ∧ t.hist[s.hist.length]? = some e.toEvent := by
  refine ⟨hostMove e { s with script := rest }, by rw [step_host hs, if_pos ha], hostMove_script _ _, ?_⟩
  obtain ⟨es, hist⟩ := (hostMove_effect (s := { s with script := rest }) ha).hist_append
  simp [hist]

/-- A host event that is not admitted stays offered, and the step is the core's. -/
theorem step_leaves_unadmitted {s : State} {e : HostEvent} {rest : List Turn} (hs : s.script = .host e :: rest)
    (ha : ¬ admitted e s = true) : step s = coreStep s ∧ ∀ t, step s = .next t → t.script = s.script := by
  have stays : s.restScript = s.script := by rw [State.restScript, hs]
  refine ⟨by rw [step_host hs, if_neg ha], fun t h => ?_⟩
  rcases step_cases h with ⟨e', rest', hs', ha', -⟩ | ⟨-, -, ex⟩ | ⟨-, rfl⟩
  · obtain ⟨⟨⟩, -⟩ := List.cons.inj (hs.symm.trans hs')
    exact absurd ha' ha
  · exact (exec_next ex).keeps.1.trans stays
  · exact stays

/-- Settles O34: R36's table, row by row, is `admitted`; what a step does then is said by the two lemmas above. -/
theorem hostMoveTakenExactlyWhenAdmitted : Obligations.HostMoveTakenExactlyWhenAdmitted := by
  intro s e rest hs
  constructor
  · intro listed
    refine step_takes_admitted hs ?_
    rcases listed with rfl | rfl | ⟨⟨ws, rfl⟩, r⟩ | ⟨rfl, r⟩ | ⟨⟨v, rfl⟩, r⟩ | ⟨rfl, r⟩
    · exact admitted_reset s
    · exact admitted_run s
    · exact (admitted_load ws s).2 r
    · exact (admitted_loadAbort s).2 r
    · exact (admitted_inData v s).2 ⟨r.1, Option.isSome_iff_ne_none.2 r.2⟩
    · exact (admitted_dumpReq s).2 r
  · intro unlisted
    refine step_leaves_unadmitted hs ?_
    rcases unlisted with ⟨⟨ws, rfl⟩, r⟩ | ⟨rfl, r⟩ | ⟨⟨v, rfl⟩, r⟩ | ⟨rfl, r⟩
    · rwa [admitted_load]
    · rwa [admitted_loadAbort]
    · rwa [admitted_inData, Option.isSome_iff_ne_none]
    · simp [r]

end Sys2Proof.Machine
end


section
/-! Memory as the programs see it (20_memory.md): the operand's bounds check (R41), the store a later fetch sees (R56), and the
host's load and dump (R47 to R51). -/

namespace Sys2Proof.Machine

/-- Settles O25: the seven meanings reach memory by one of three operand paths, and each path halts outside memory. -/
theorem operandOutsideMemoryHalts : Obligations.OperandOutsideMemoryHalts := by
  intro s m outside i accesses
  simp only [List.mem_cons, List.not_mem_nil, or_false] at accesses
  rcases accesses with rfl | rfl | rfl | rfl | rfl | rfl | rfl
  · exact withOperand_outside outside s _
  · exact withOperand_outside outside s _
  · exact toOperand_outside outside s.acc s
  · exact aluToAcc_outside outside .add s
  · exact aluToAcc_outside outside .subtract s
  · exact aluToAcc_outside outside .divide s
  · exact aluToAcc_outside outside .multiply s

/-- The core's turn inside memory: the decoded word, executed on the fetched state (R73, R74, R76). -/
theorem step_inside {s : State} (ct : s.CoreTurn) (en : s.CoreEnabled) (inside : InMem s.pc) :
    step s = exec (decode (s.word s.pc)) (fetched s) := by
  rw [step_coreTurn ct, coreStep_enabled (s := s.turnTaken) en, fetchExecute_inside (s := s.turnTaken) inside]
  rfl

/-- R65's row for STORE. -/
theorem decode_store {m : Int} (hm : InMem m) : decode (2100 + m) = .store m := by
  rw [decode_eq_lookup, show (2100 : Int) + m = 100 * 21 + m from rfl, opcodeOf_join 21 m hm, operandOf_join 21 m hm]
  rfl

/-- A fetch from memory latches in `IR` the word at `pc` (R74). -/
theorem fetch_ir_inside {s : State} (inside : InMem s.pc) : ∃ t, fetch s = some t ∧ t.ir = s.word s.pc :=
  ⟨latch (s.word s.pc) s, by rw [fetch, memRead_inside inside, Option.map_some], rfl⟩

/-- Settles O19: the STORE runs on the fetched state, so `IR` is latched before the write, and the fetch after it reads the
written memory. -/
theorem storeIsSeenByNextFetch : Obligations.StoreIsSeenByNextFetch := by
  intro s m ct en inside hm wf word
  have stored : (setWord m s.acc (fetched s)).word m = s.acc := setWord_word_same m s.acc (fetched s) wf
  refine ⟨setWord m s.acc (fetched s), ?_, word, stored, ?_, ?_⟩
  · rw [step_inside ct en inside, word, decode_store hm]
    exact exec_store_inside (fetched s) hm
  · exact fun a ha other => setWord_word_other m a s.acc (fetched s) hm.1 ha.1 other
  · intro atStored
    obtain ⟨u, hu, ir⟩ := fetch_ir_inside (s := setWord m s.acc (fetched s)) (by rwa [atStored])
    exact ⟨u, hu, by rw [ir, atStored, stored]⟩

/-- A host event at the head of the script, admitted, is the step (R36). -/
theorem step_admitted {s : State} {e : HostEvent} {rest : List Turn} (hs : s.script = .host e :: rest)
    (ha : admitted e s = true) : step s = .next (hostMove e { s with script := rest }) := by
  rw [step_host hs, if_pos ha]

/-- R47 as one equation on the state. -/
theorem step_load_fits {s : State} {ws : List Int} {rest : List Turn} (ready : s.rs = .ready) (fits : ws.length ≤ 100)
    (hs : s.script = .host (.load ws) :: rest) :
    step s = .next { s with mem := s.mem.writeFrom 0 ws, hist := s.hist ++ [.load ws, .loadAck .ok], script := rest } := by
  rw [step_admitted hs ((admitted_load ws s).2 ready), hostMove_load_fits fits]

/-- R48 and R49 as one equation on the state: both ways a load fails leave the same state but for the recorded event. -/
theorem step_load_rejected {s : State} {e : HostEvent} {rest : List Turn} (ready : s.rs = .ready)
    (rejected : (∃ ws, e = .load ws ∧ 100 < ws.length) ∨ e = .loadAbort) (hs : s.script = .host e :: rest) :
    step s = .next { s with mem := [], hist := s.hist ++ [e.toEvent, .loadAck .loadError], script := rest } := by
  rcases rejected with ⟨ws, rfl, tooMany⟩ | rfl
  · rw [step_admitted hs ((admitted_load ws s).2 ready), hostMove_load_over tooMany, toEvent_load]
  · rw [step_admitted hs ((admitted_loadAbort s).2 ready), hostMove_loadAbort, toEvent_loadAbort]

/-- Settles O36: `step_load_rejected`, where an empty listing reads 0 everywhere. -/
theorem rejectedLoadZeroesMemory : Obligations.RejectedLoadZeroesMemory := by
  intro s e rest ready rejected hs
  exact ⟨_, step_load_rejected ready rejected hs, fun _ _ => rfl, rfl, rfl, ⟨rfl, rfl, rfl⟩, ready, rfl, rfl, rfl⟩

section
variable {s t : State} {ws : List Int} (loaded : t.mem = s.mem.writeFrom 0 ws)
include loaded

/-- A load's words stand from address 0 on (R47). -/
theorem word_of_loaded (fits : ws.length ≤ 100) (wf : s.mem.wf = true) {i : Nat} {v : Int} (hv : ws[i]? = some v) :
    t.word i = v := by
  have read : (s.mem.writeFrom 0 ws).read (0 + i) = v := Memory.read_writeFrom_inside (by omega) wf hv
  rw [State.word, loaded, Int.toNat_natCast, ← read, Nat.zero_add]

/-- The words beyond a load stay (R47). -/
theorem word_beyond_loaded {a : Int} (beyond : (ws.length : Int) ≤ a) : t.word a = s.word a := by
  rw [State.word, loaded, Memory.read_writeFrom_outside (by omega), State.word]

/-- The 100 words after a load into a zeroed memory: the loaded words, then zeros (R51). -/
theorem allWords_of_loaded (fits : ws.length ≤ 100) (zeroed : s.mem = Memory.zeroed) :
    allWords t = ws ++ List.replicate (100 - ws.length) 0 := by
  refine List.ext_getElem (by simp; omega) fun i hi _ => ?_
  have word : (allWords t)[i] = t.word i := by simp [allWords]
  rw [word, List.getElem_append]
  split
  · next inside =>
    exact word_of_loaded loaded fits (zeroed ▸ Memory.wf_zeroed) (List.getElem?_eq_getElem inside)
  · rw [List.getElem_replicate, word_beyond_loaded loaded (by omega), State.word, zeroed]
    rfl

end

/-- Settles O35: `step_load_fits`, word by word. -/
theorem loadWritesItsWords : Obligations.LoadWritesItsWords := by
  intro s ws rest ready fits wf hs
  exact ⟨_, step_load_fits ready fits hs, fun _ _ hv => word_of_loaded rfl fits wf hv,
    fun _ _ beyond => word_beyond_loaded rfl beyond, rfl, rfl, ⟨rfl, rfl, rfl⟩, ready, rfl, rfl, rfl⟩

/-- R119 as one equation on the state: a dump changes the history alone. -/
theorem step_dumpReq {s : State} {rest : List Turn} (stopped : s.rs = .ready ∨ s.rs = .halted)
    (hs : s.script = .host .dumpReq :: rest) :
    step s = .next { s with hist := s.hist ++ [.dumpReq, .dump (snapshot s)], script := rest } := by
  rw [step_admitted hs ((admitted_dumpReq s).2 stopped), hostMove_dumpReq]
  rfl

/-- Settles O37: two host steps, the load and then the dump of the 100 words it left. -/
theorem loadThenDumpReproducesProgram : Obligations.LoadThenDumpReproducesProgram := by
  intro P fits
  have load := run_succ_next 1 (step_load_fits (s := { State.reset with script := [.host (.load P), .host .dumpReq] })
    rfl fits rfl)
  have loadThenDump := load.trans (run_succ_next 0 (step_dumpReq (.inl rfl) rfl))
  exact ⟨_, _, loadThenDump, rfl, allWords_of_loaded (s := State.reset) rfl fits rfl⟩

end Sys2Proof.Machine
end

section
/-! Decoder and encoder (30_encoding.md R59 to R72): `encode` and `decode` are inverse to each other between the integers and
the well-formed instructions, so what a word decodes to is read off the encoder. -/

namespace Sys2Proof.Machine

/-- An operation code outside R65's table is answered by the word itself (R66). -/
theorem lookup_of_not_mem {q : Int} (h : q ∉ definedOpcodes) (m w : Int) : lookup q m w = .illegal w := by
  simp only [definedOpcodes, List.mem_cons, List.not_mem_nil, or_false, not_or] at h
  simp [lookup, h]

/-- An illegal word is a well-formed term exactly when its operation code is none of the twelve (R66). -/
theorem illegal_wellFormed_iff (w : Int) : (Instr.illegal w).WellFormed ↔ opcodeOf w ∉ definedOpcodes := by
  simp [Instr.WellFormed, Instr.wellFormed, selectsNone]

/-- The family `EncodedFields`, for every instruction. -/
theorem encodedFields (i : Instr) : Laws.EncodedFields.Statement i := by
  cases i with
  | read m => exact Laws.EncodedFields.read m
  | write m => exact Laws.EncodedFields.write m
  | load m => exact Laws.EncodedFields.load m
  | store m => exact Laws.EncodedFields.store m
  | add m => exact Laws.EncodedFields.add m
  | subtract m => exact Laws.EncodedFields.subtract m
  | divide m => exact Laws.EncodedFields.divide m
  | multiply m => exact Laws.EncodedFields.multiply m
  | branch m => exact Laws.EncodedFields.branch m
  | branchneg m => exact Laws.EncodedFields.branchneg m
  | branchzero m => exact Laws.EncodedFields.branchzero m
  | halt m => exact Laws.EncodedFields.halt m
  | illegal w => exact Laws.EncodedFields.illegal w

/-- The table answers an instruction's operation code and operand with the instruction (R65). -/
theorem lookup_fields {i : Instr} (wf : i.WellFormed) : lookup i.opcode i.operand (encode i) = i := by
  cases i with
  | illegal w => exact lookup_of_not_mem ((illegal_wellFormed_iff w).1 wf) _ w
  | read | write | load | store | add | subtract | divide | multiply | branch | branchneg | branchzero | halt => rfl

theorem decode_encode {i : Instr} (wf : i.WellFormed) : decode (encode i) = i := by
  obtain ⟨opcode, operand⟩ := encodedFields i wf
  rw [decode_eq_lookup, opcode, operand, lookup_fields wf]

/-- Each row of the table encodes back to the word its two fields make up. -/
theorem encode_lookup {q m w : Int} (fields : 100 * q + m = w) : encode (lookup q m w) = w := by
  rcases lookup_cases q m w with ⟨rfl, e⟩ | ⟨rfl, e⟩ | ⟨rfl, e⟩ | ⟨rfl, e⟩ | ⟨rfl, e⟩ | ⟨rfl, e⟩ | ⟨rfl, e⟩ | ⟨rfl, e⟩ |
    ⟨rfl, e⟩ | ⟨rfl, e⟩ | ⟨rfl, e⟩ | ⟨rfl, e⟩ | ⟨-, e⟩
  all_goals rw [e]
  iterate 12 exact fields
  · rfl

theorem encode_decode (w : Int) : encode (decode w) = w :=
  encode_lookup (word_split w).symm

/-- What a word decodes to, by the encoder. -/
theorem decode_eq_iff {i : Instr} (wf : i.WellFormed) (w : Int) : decode w = i ↔ w = encode i := by
  constructor
  · rintro rfl
    exact (encode_decode w).symm
  · rintro rfl
    exact decode_encode wf

/-- R65, for an instruction whose word carries the operation code `c`: among the words with its operand it is selected by `c`
alone. -/
theorem decode_join_iff {i : Instr} {q c m : Int} (wf : i.WellFormed) (word : encode i = 100 * c + m) :
    decode (100 * q + m) = i ↔ q = c := by
  rw [decode_eq_iff wf, word]
  omega

/-- R66: the illegal words are those whose operation code is none of the twelve. -/
theorem decode_eq_illegal_iff (w : Int) : decode w = .illegal w ↔ opcodeOf w ∉ definedOpcodes := by
  rw [← illegal_wellFormed_iff]
  exact ⟨fun h => h ▸ decode_wellFormed w, fun wf => (decode_eq_iff wf w).2 rfl⟩

/-- An illegal instruction carries the word it was decoded from. -/
theorem eq_of_decode_eq_illegal {w v : Int} (h : decode w = .illegal v) : v = w := by
  rw [← encode_decode w, h, encode]

/-- Settles O2: the encoder puts the fields in the word from which the table answers the instruction. -/
theorem decodeOfEncodeIsIdentity : Obligations.DecodeOfEncodeIsIdentity :=
  fun _ wf => decode_encode wf

/-- Settles O3: row by row of the table, the word is 100 times its operation code plus its operand. -/
theorem encodeOfDecodeIsIdentity : Obligations.EncodeOfDecodeIsIdentity :=
  encode_decode

/-- Settles O4: the operand is a remainder by 100, and the table answers `illegal` for no other operation codes. -/
theorem decodeAnswersWellFormed : Obligations.DecodeAnswersWellFormed :=
  decode_wellFormed

/-- Settles O5: the twelve rows by `decode_join_iff`, the thirteenth by `decode_eq_illegal_iff`. -/
theorem opcodeSelectsInstruction : Obligations.OpcodeSelectsInstruction := by
  rintro w q m rfl hm
  have operand : operandInRange m = true := (operandInRange_iff m).2 hm
  refine ⟨?_, ?_, ?_, ?_, ?_, ?_, ?_, ?_, ?_, ?_, ?_, ?_, ?_⟩
  iterate 12 exact decode_join_iff operand rfl
  · rw [decode_eq_illegal_iff, opcodeOf_join q m hm]
    rfl

/-- Settles O6: the twelve operation codes are the hundreds of the four ranges. -/
theorem legalWordsAreTheFourRanges : Obligations.LegalWordsAreTheFourRanges := by
  intro w
  have illegal : (∃ v, decode w = .illegal v) ↔ decode w = .illegal w :=
    ⟨fun ⟨_, h⟩ => eq_of_decode_eq_illegal h ▸ h, fun h => ⟨w, h⟩⟩
  rw [illegal, decode_eq_illegal_iff, opcodeOf_eq]
  simp only [definedOpcodes, List.mem_cons, List.not_mem_nil, or_false]
  omega

/-- Settles O1: the decoder, evaluated on the fifteen words. -/
theorem specWordsDecode : Obligations.SpecWordsDecode := by
  unfold Obligations.SpecWordsDecode
  decide

end Sys2Proof.Machine
end

section
/-! Every word has a meaning, so no step is refused (30_encoding.md R66, R69, 40_cycle.md R84). -/

namespace Sys2Proof.Machine

/-- One fetch and one execute always answer a next state: a fault of the spec is a halt entry (R106). -/
theorem fetchExecute_answers (s : State) : ∃ t, fetchExecute s = .next t := by
  by_cases inside : InMem s.pc
  · obtain ⟨t, ex, -⟩ := exec_effect (decode (s.word s.pc)) (latch (s.word s.pc) s)
    exact ⟨t, (fetchExecute_inside inside).trans ex⟩
  · exact ⟨_, fetchExecute_outside inside⟩

/-- The core is stuck by a named fault, or it completes its step. -/
theorem coreStep_ne_refused (s : State) (r : Refusal) : coreStep s ≠ .refused r := by
  unfold coreStep
  split
  · nofun
  · nofun
  · split
    · nofun
    · obtain ⟨t, answers⟩ := fetchExecute_answers s
      rw [answers]
      nofun

/-- The turns of a script, and the empty script: only the core could refuse, and it does not. -/
theorem step_ne_refused (s : State) (r : Refusal) : step s ≠ .refused r := by
  rcases hs : s.script with _ | ⟨_ | e, rest⟩
  · rw [step_coreTurn (by simp [State.CoreTurn, State.coreTurn, hs])]
    exact coreStep_ne_refused _ r
  · rw [step_coreTurn (by simp [State.CoreTurn, State.coreTurn, hs])]
    exact coreStep_ne_refused _ r
  · rw [step_host hs]
    split
    · nofun
    · exact coreStep_ne_refused s r

/-- Settles O13: `step_ne_refused`, and at the core's turn the next state is R78's. -/
theorem noStepIsRefused : Obligations.NoStepIsRefused :=
  fun s => ⟨step_ne_refused s, fun ct en => ⟨_, step_eq_wholeStep ct en⟩⟩

end Sys2Proof.Machine
end

section
/-! The fetch phase and the core's turn (40_cycle.md R73 to R76, R78): what a fetch writes, when the core has a step, and which. -/

namespace Sys2Proof.Machine

/-- A fetch from memory latches the word at `pc` (R74). -/
theorem fetch_inside {s : State} (inside : InMem s.pc) : fetch s = some (latch (s.word s.pc) s) := by
  rw [fetch, memRead_inside inside, Option.map_some]

/-- Settles O7: the latched fields are the quotient and the remainder of the word by 100. -/
theorem fetchLatchesFourRegisters : Obligations.FetchLatchesFourRegisters := fun s inside =>
  ⟨opcodeOf (s.word s.pc), operandOf (s.word s.pc), word_split _, operandOf_range _, fetch_inside inside⟩

/-- The core's turn before `Run` is stuck (R73). -/
theorem coreStep_ready {s : State} (ready : s.rs = .ready) : coreStep s = .fault .notStarted := by
  simp only [coreStep, ready]

/-- The core's turn after the run is stuck (R80). -/
theorem coreStep_halted {s : State} (halted : s.rs = .halted) : coreStep s = .fault .runEnded := by
  simp only [coreStep, halted]

/-- The core's turn while a READ waits is stuck (R86). -/
theorem coreStep_waiting {s : State} (waiting : s.Waiting) : coreStep s = .fault .awaitingInput := by
  obtain ⟨running, pending⟩ := waiting
  obtain ⟨a, pend⟩ := Option.ne_none_iff_exists'.1 pending
  simp only [coreStep, running, pend]

/-- Settles O10: the enabled core takes R78's step, and each other state is stuck by its own fault. -/
theorem coreStepsExactlyWhenEnabled : Obligations.CoreStepsExactlyWhenEnabled := by
  intro s ct
  refine ⟨⟨fun ⟨t, h⟩ => ?_, fun en => ⟨_, step_eq_wholeStep ct en⟩⟩, fun ready => ?_, fun halted => ?_,
    fun running pending => ?_⟩
  · rw [step_coreTurn ct] at h
    exact (coreStep_next h).1
  · rw [step_coreTurn ct, coreStep_ready (s := s.turnTaken) ready]
  · rw [step_coreTurn ct, coreStep_halted (s := s.turnTaken) halted]
  · rw [step_coreTurn ct, coreStep_waiting (s := s.turnTaken) ⟨running, pending⟩]

/-- Settles O11: `step_eq_wholeStep`, the composition of fetch, table lookup and meanings. -/
theorem stepIsWholeStep : Obligations.StepIsWholeStep := fun _ => step_eq_wholeStep

/-- Settles O8: `step_inside`, with the fetched state written out. -/
theorem stepRunsDecodedInstruction : Obligations.StepRunsDecodedInstruction := fun _ => step_inside

/-- The core's turn outside memory: the halt entry alone (R75). -/
theorem step_outside {s : State} (ct : s.CoreTurn) (en : s.CoreEnabled) (outside : ¬ InMem s.pc) :
    step s = .next (haltedWith .outOfBounds s.turnTaken) := by
  rw [step_coreTurn ct, coreStep_enabled (s := s.turnTaken) en, fetchExecute_outside (s := s.turnTaken) outside,
    enterHalt_eq_haltedWith]

/-- Settles O9: `step_outside`, with the halt entry written out. -/
theorem fetchOutsideMemoryHalts : Obligations.FetchOutsideMemoryHalts := fun _ => step_outside

/-- Settles O24: the halt entry on the state the fetch left. -/
theorem illegalWordHalts : Obligations.IllegalWordHalts := fun s w _ => exec_illegal s w

end Sys2Proof.Machine
end

section
/-! The instruction counter law (40_cycle.md R77). -/

namespace Sys2Proof.Machine

/-- The execute phase moves `pc` to the operand on a taken branch, and otherwise leaves it where the fetch put it (R103). -/
theorem wholeExecute_pc (t : State) :
    (wholeExecute t).pc =
      if t.opc = 40 ∨ (t.opc = 41 ∧ t.acc < 0) ∨ (t.opc = 42 ∧ t.acc = 0) then t.opd else t.pc := by
  by_cases branch : t.opc = 40
  · simp [wholeExecute, branch]
  by_cases branchneg : t.opc = 41
  · by_cases taken : t.acc < 0 <;> simp [wholeExecute, branchneg, taken]
  by_cases branchzero : t.opc = 42
  · by_cases taken : t.acc = 0 <;> simp [wholeExecute, branchzero, taken]
  · simp only [wholeExecute, branch, branchneg, branchzero, false_and, or_self, if_false]
    split_ifs <;> rfl

/-- An enabled core at a `pc` in memory executes the fetched word (R78). -/
theorem wholeStep_inside {s : State} (inside : InMem s.pc) : wholeStep s = wholeExecute (fetched s) :=
  if_neg (by omega)

/-- An input, taken or for an address outside memory, leaves `pc` alone (R77, R88). -/
theorem HostEffect.inData_pc {v : Int} {s t : State} (h : HostEffect s (.inData v) t) : t.pc = s.pc := by
  cases h with
  | inputInside | inputOutside => rfl

/-- Settles O12: `wholeExecute_pc` on the fetched state, whose `OPC` and `OPD` are the word's; an input and the halt entry
write no `pc`. -/
theorem instructionCounterLaw : Obligations.InstructionCounterLaw := by
  refine ⟨fun s q m ct en inside word hm => ?_, fun s v rest waiting hs => ?_, fun s ct en outside => ?_⟩
  · have opc : (fetched s).opc = q := by rw [← opcodeOf_join q m hm, ← word]; rfl
    have opd : (fetched s).opd = m := by rw [← operandOf_join q m hm, ← word]; rfl
    refine ⟨_, step_eq_wholeStep ct en, ?_⟩
    rw [wholeStep_inside inside, wholeExecute_pc, opc, opd, fetched_acc, fetched_pc]
  · have ha : admitted (.inData v) s = true :=
      (admitted_inData v s).2 ⟨waiting.1, Option.isSome_iff_ne_none.2 waiting.2⟩
    exact ⟨_, step_admitted hs ha, (hostMove_effect (s := { s with script := rest }) ha).inData_pc⟩
  · exact ⟨_, step_outside ct en outside, rfl⟩

end Sys2Proof.Machine
end

section
/-! The run state machine (40_cycle.md R80, R81, R83): what moves `RS`, and that `Halted` is left by `Reset` alone. -/

namespace Sys2Proof.Machine

/-- Settles O28: among the host's moves only `Reset`, `Run` and an input for an address outside memory change `RS`, among
the meanings only the halt entry. -/
theorem runStateMovesOnlyAsListed : Obligations.RunStateMovesOnlyAsListed := by
  intro s t h changed
  rcases step_cases h with ⟨e, rest, hs, -, he⟩ | ⟨en, -, ex⟩ | ⟨en, rfl⟩
  · have offered : s.script.head? = some (.host e) := by rw [hs]; rfl
    cases he with
    | reset => exact .inr (.inr ⟨rfl, offered⟩)
    | run =>
      by_cases ready : s.rs = .ready
      · exact .inl ⟨ready, if_pos ready, offered⟩
      · exact absurd (if_neg ready) changed
    | inputOutside v a running => exact .inr (.inl ⟨running, rfl, by simp, by simp⟩)
    | loadAbort | loadFits | loadOver | inputInside | dumpReq => exact absurd rfl changed
  · cases exec_next ex with
    | halts c hc => exact .inr (.inl ⟨en.1, rfl, hc, by simp⟩)
    | acc | word | jump | fall | readIssue | output => exact absurd rfl changed
  · exact .inr (.inl ⟨en.1, rfl, by simp, by simp⟩)

/-- The history and the script stand beside the state tuple (R38). -/
theorem sameTuple_record (s : State) (h : List Event) (sc : List Turn) : SameTuple s { s with hist := h, script := sc } :=
  ⟨rfl, rfl, ⟨rfl, rfl, rfl⟩, fun _ _ => rfl, rfl, rfl, rfl⟩

theorem SameTuple.rs_eq {s t : State} (h : SameTuple s t) : t.rs = s.rs := by
  obtain ⟨-, -, -, -, rs, -, -⟩ := h
  exact rs

theorem SameTuple.trans {s t u : State} (h : SameTuple s t) (k : SameTuple t u) : SameTuple s u := by
  obtain ⟨acc, pc, ⟨ir, opc, opd⟩, words, rs, hc, pend⟩ := h
  obtain ⟨acc', pc', ⟨ir', opc', opd'⟩, words', rs', hc', pend'⟩ := k
  exact ⟨acc'.trans acc, pc'.trans pc, ⟨ir'.trans ir, opc'.trans opc, opd'.trans opd⟩,
    fun a ha => (words' a ha).trans (words a ha), rs'.trans rs, hc'.trans hc, pend'.trans pend⟩

/-- `Run` as one equation on the step (R83): a `Ready` core starts, and only the history tells that it was taken elsewhere. -/
theorem step_run {s : State} {rest : List Turn} (hs : s.script = .host .run :: rest) :
    step s = .next { s with rs := if s.rs = .ready then .running else s.rs, hist := s.hist ++ [.run], script := rest } := by
  rw [step_admitted hs (admitted_run s), hostMove_run]

/-- Settles O38: `step_run`, by the run state it finds. -/
theorem runStartsOnlyFromReady : Obligations.RunStartsOnlyFromReady := by
  intro s rest hs
  refine ⟨_, step_run hs, fun ready => ?_, fun running => ?_, fun halted => ?_⟩
  · rw [if_pos ready]
    exact ⟨rfl, sameTuple_record { s with rs := .running } _ _⟩
  · rw [if_neg (by simp [running])]
    exact sameTuple_record s _ _
  · rw [if_neg (by simp [halted])]
    exact sameTuple_record s _ _

/-- A halted machine takes `Run`, a dump and `Reset`, and no other step (R36, R73): the first two leave the tuple, and the
rest of the script. -/
theorem step_halted {s t : State} (halted : s.rs = .halted) (noReset : Turn.host .reset ∉ s.script)
    (h : step s = .next t) : SameTuple s t ∧ Turn.host .reset ∉ t.script := by
  have notReady : s.rs ≠ .ready := by simp [halted]
  have notRunning : s.rs ≠ .running := by simp [halted]
  rcases step_cases h with ⟨e, rest, hs, -, he⟩ | ⟨en, -, -⟩ | ⟨en, -⟩
  · rw [hs, List.mem_cons, not_or] at noReset
    obtain ⟨headNotReset, restNoReset⟩ := noReset
    cases he with
    | reset => exact absurd rfl headNotReset
    | run =>
      simp only [if_neg notReady]
      exact ⟨sameTuple_record s _ _, restNoReset⟩
    | dumpReq => exact ⟨sameTuple_record s _ _, restNoReset⟩
    | loadAbort ready | loadFits _ ready | loadOver _ ready => exact absurd ready notReady
    | inputInside _ _ running | inputOutside _ _ running => exact absurd running notRunning
  · exact absurd en.1 notRunning
  · exact absurd en.1 notRunning

/-- Settles O33, by induction on the number of steps: each step keeps the tuple and the script's freedom from `Reset`. -/
theorem haltedStaysHalted : Obligations.HaltedStaysHalted := by
  intro k
  induction k with
  | zero =>
    intro s t halted _ h
    cases h
    exact ⟨sameTuple_record s _ _, halted⟩
  | succ k ih =>
    intro s t halted noReset h
    obtain ⟨u, first, later⟩ := run_succ_inv h
    obtain ⟨same, noReset'⟩ := step_halted halted noReset first
    obtain ⟨same', halted'⟩ := ih u t (same.rs_eq.trans halted) noReset' later
    exact ⟨same.trans same', halted'⟩

end Sys2Proof.Machine
end

section
/-! Input and output (41_io.md R86 to R88): READ's issue, the wait for the host, READ's completion, and WRITE. -/

namespace Sys2Proof.Machine

/-- READ's completion as one equation on the step: the integer goes to the waiting address, unclamped (R86, R88). -/
theorem step_inData_inside {s : State} {a v : Int} {rest : List Turn} (running : s.rs = .running)
    (waits : s.pend = some a) (inside : InMem a) (hs : s.script = .host (.inData v) :: rest) :
    step s = .next { setWord a v s with pend := none, hist := s.hist ++ [.inData v], script := rest } := by
  have ha : admitted (.inData v) s = true := (admitted_inData v s).2 ⟨running, Option.isSome_of_eq_some waits⟩
  rw [step_admitted hs ha, hostMove_inData_inside (s := { s with script := rest }) inside v waits]
  rfl

/-- Settles O15: `step_inData_inside`, where memory is that of one word written at the waiting address. -/
theorem inputCompletesRead : Obligations.InputCompletesRead := by
  intro s a v rest running waits inside wf hs
  exact ⟨_, step_inData_inside running waits inside hs, setWord_word_same a v s wf,
    fun b hb other => setWord_word_other a b v s inside.1 hb.1 other,
    rfl, rfl, rfl, ⟨rfl, rfl, rfl⟩, running, rfl, rfl⟩

/-- The core's turn while a READ waits is no step (R73, R86). -/
theorem step_waiting {s : State} (ct : s.CoreTurn) (waiting : s.Waiting) : step s = .fault .awaitingInput := by
  rw [step_coreTurn ct, coreStep_waiting (s := s.turnTaken) waiting]

/-- Settles O14: READ's issue leaves the state in which `step_waiting` holds. -/
theorem readIssuesAndWaits : Obligations.ReadIssuesAndWaits := fun s m =>
  ⟨exec_read m s, fun running ct => step_waiting ct ⟨running, Option.some_ne_none m⟩⟩

/-- Settles O16: WRITE emits the word its operand's read path gives. -/
theorem writeEmitsWord : Obligations.WriteEmitsWord := fun s _ inside => exec_write_inside s inside

end Sys2Proof.Machine
end

section
/-! Load and store (42_load_store.md R89, R90): the accumulator from one word of memory, and back. -/

namespace Sys2Proof.Machine

/-- Settles O18: memory after STORE is that of `ACC` written at the operand, and `setWord` writes no other field. -/
theorem storeWritesOneWord : Obligations.StoreWritesOneWord := by
  intro s m inside wf
  exact ⟨_, exec_store_inside s inside, setWord_word_same m s.acc s wf,
    fun a ha other => setWord_word_other m a s.acc s inside.1 ha.1 other,
    rfl, rfl, ⟨rfl, rfl, rfl⟩, rfl, rfl, rfl, rfl, rfl⟩

/-- Settles O17: LOAD sets `ACC` to the word its operand's read path gives. -/
theorem loadCopiesWord : Obligations.LoadCopiesWord := fun s _ inside => exec_load_inside s inside

end Sys2Proof.Machine
end

section
/-! Arithmetic (43_arithmetic.md R91 to R96): the exact operations on `ACC`, and the floored quotient or the halt of DIVIDE. -/

namespace Sys2Proof.Machine

/-- `fdiv` rounds toward negative infinity at every sign of the divisor (R96). -/
theorem fdiv_isFloorQuotient (a d : Int) : IsFloorQuotient a d (fdiv a d) :=
  ⟨fdiv_bounds_of_pos a, fdiv_bounds_of_neg a⟩

/-- Of two floored quotients neither is the greater: `q ≤ a/d < q' + 1`, cleared of `d` according to its sign. -/
theorem IsFloorQuotient.le {a d q q' : Int} (nonzero : d ≠ 0) (h : IsFloorQuotient a d q) (h' : IsFloorQuotient a d q') :
    q ≤ q' := by
  obtain ⟨ofPos, ofNeg⟩ := h
  obtain ⟨ofPos', ofNeg'⟩ := h'
  rcases lt_or_gt_of_ne nonzero with neg | pos
  · have below : d * (q' + 1) < d * q := (ofNeg' neg).2.trans_le (ofNeg neg).1
    exact Int.lt_add_one_iff.1 (lt_of_mul_lt_mul_of_nonpos_left below neg.le)
  · have below : d * q < d * (q' + 1) := (ofPos pos).1.trans_lt (ofPos' pos).2
    exact Int.lt_add_one_iff.1 (lt_of_mul_lt_mul_left below pos.le)

/-- The floored quotient is unique (R96). -/
theorem IsFloorQuotient.unique {a d q q' : Int} (nonzero : d ≠ 0) (h : IsFloorQuotient a d q)
    (h' : IsFloorQuotient a d q') : q = q' :=
  le_antisymm (h.le nonzero h') (h'.le nonzero h)

/-- Settles O21: `exec_divide_inside` by its divisor; `fdiv` is a floored quotient, and there is no other. -/
theorem divideFloorsOrHalts : Obligations.DivideFloorsOrHalts := by
  intro s m inside
  refine ⟨fun nonzero => ?_, fun zero => ?_⟩
  · have floor := fdiv_isFloorQuotient s.acc (s.word m)
    refine ⟨_, floor, fun q' other => other.unique nonzero floor, ?_⟩
    rw [exec_divide_inside s inside, if_neg nonzero]
    rfl
  · rw [exec_divide_inside s inside, if_pos zero]
    rfl

/-- Settles O20: each of the three sets `ACC` to its result on the operand's word. -/
theorem arithmeticIsExact : Obligations.ArithmeticIsExact := fun s _ inside =>
  ⟨exec_add_inside s inside, exec_subtract_inside s inside, exec_multiply_inside s inside⟩

end Sys2Proof.Machine
end

section
/-! Control (44_control.md R99 to R102): the branches write `pc` alone, by their condition on `ACC`, and HALT ends the run. -/

namespace Sys2Proof.Machine

/-- A guarded write of `pc` is a write of `pc` alone: of the target, or of the value it already has. -/
theorem ite_setPc (p : Prop) [Decidable p] (m : Int) (s : State) :
    (if p then setPc m s else s) = { s with pc := if p then m else s.pc } := by
  by_cases taken : p
  · simp only [if_pos taken, setPc]
  · simp only [if_neg taken]

/-- Settles O22: BRANCH is `setPc`; the conditional branches are `setPc` guarded by the sign and by the zero of `ACC`. -/
theorem branchesSetCounter : Obligations.BranchesSetCounter := fun s m =>
  ⟨exec_branch m s, by rw [exec_branchneg, ite_setPc], by rw [exec_branchzero, ite_setPc]⟩

/-- Settles O23: the halt entry with cause HALT, in which the operand does not occur. -/
theorem haltEndsRun : Obligations.HaltEndsRun := fun s m => exec_halt m s

end Sys2Proof.Machine
end

section
/-! Exceptions (60_exceptions.md): one `Status` per ended run (R106), which cause is recorded (R105, R109), that a fault is precise
(R108), the READ wait (R115, R122) and the dump (R119). -/

namespace Sys2Proof.Machine

/-- Events that are neither a `Reset` nor a `Status` do not count. -/
theorem statusesSinceReset_append_quiet {es : List Event} (noReset : Event.reset ∉ es)
    (noStatus : ∀ c, Event.status c ∉ es) (h : List Event) :
    statusesSinceReset (h ++ es) = statusesSinceReset h := by
  induction es generalizing h with
  | nil => rw [List.append_nil]
  | cons e es ih =>
    simp only [List.mem_cons, not_or] at noReset noStatus
    rw [List.append_cons, ih noReset.2 (fun c => (noStatus c).2), statusesSinceReset_append]
    cases e with
    | reset => exact absurd rfl noReset.1
    | status c => exact absurd rfl (noStatus c).1
    | load | loadAbort | loadAck | run | inReq | inData | out | dumpReq | dump => rfl

variable {s t : State}

/-- A change that neither enters nor leaves `Halted` keeps the law, whatever quiet events it records. -/
theorem State.OneStatusPerRun.afterQuiet (one : s.OneStatusPerRun) (sameEnd : t.rs = .halted ↔ s.rs = .halted)
    {es : List Event} (hist : t.hist = s.hist ++ es) (noReset : Event.reset ∉ es)
    (noStatus : ∀ c, Event.status c ∉ es) : t.OneStatusPerRun := by
  have count : statusesSinceReset t.hist = statusesSinceReset s.hist := by
    rw [hist, statusesSinceReset_append_quiet noReset noStatus]
  rw [State.OneStatusPerRun, count, ne_eq, sameEnd]
  exact one

/-- The halt entry of a run that has not ended records the run's one `Status` (R106). -/
theorem State.OneStatusPerRun.afterHalt (one : s.OneStatusPerRun) (running : s.rs = .running) (c : HaltCause) :
    (haltedWith c s).OneStatusPerRun := by
  have before : statusesSinceReset s.hist = 0 := one.2 (by simp [running])
  refine ⟨fun _ => ?_, fun going => absurd rfl going⟩
  rw [haltedWith_hist, statusesSinceReset_append, before]

/-- A `Reset` event starts the count again, in a core that is `Ready` (R125). -/
theorem oneStatusPerRun_of_reset (ready : t.rs = .ready) (hist : t.hist = s.hist ++ [.reset]) : t.OneStatusPerRun := by
  refine ⟨fun halted => ?_, fun _ => ?_⟩
  · cases ready.symm.trans halted
  · rw [hist, statusesSinceReset_append]

/-- Every host event keeps the law: `Reset` clears it, and an input for an address outside memory is a halt entry. -/
theorem HostEffect.keeps_oneStatusPerRun {e : HostEvent} (h : HostEffect s e t) (one : s.OneStatusPerRun) :
    t.OneStatusPerRun := by
  cases h with
  | reset => exact oneStatusPerRun_of_reset rfl rfl
  | run =>
    have sameEnd : (if s.rs = .ready then RunState.running else s.rs) = .halted ↔ s.rs = .halted := by
      by_cases ready : s.rs = .ready <;> simp [ready]
    exact one.afterQuiet sameEnd rfl (by simp) (by simp)
  | loadAbort | loadFits | loadOver | inputInside | dumpReq => exact one.afterQuiet Iff.rfl rfl (by simp) (by simp)
  | inputOutside v a running =>
    have recorded : (emit (.inData v) s).OneStatusPerRun := one.afterQuiet Iff.rfl rfl (by simp) (by simp)
    simpa [haltedWith, emit] using recorded.afterHalt running .outOfBounds

/-- Every meaning on a running core keeps the law. -/
theorem ExecEffect.keeps_oneStatusPerRun {i : Instr} (h : ExecEffect i s t) (running : s.rs = .running)
    (one : s.OneStatusPerRun) : t.OneStatusPerRun := by
  cases h with
  | acc | word | jump | fall => exact one
  | readIssue | output => exact one.afterQuiet Iff.rfl rfl (by simp) (by simp)
  | halts c => exact one.afterHalt running c

/-- Settles O46: the law through each of the three things a step can do. -/
theorem stepKeepsOneStatusPerRun : Obligations.StepKeepsOneStatusPerRun := by
  intro s t one h
  rcases step_cases h with ⟨e, rest, -, -, he⟩ | ⟨en, -, ex⟩ | ⟨en, rfl⟩
  · exact he.keeps_oneStatusPerRun one
  · exact (exec_next ex).keeps_oneStatusPerRun (s := fetched s) en.1 one
  · exact State.OneStatusPerRun.afterHalt (s := s.turnTaken) one en.1 .outOfBounds

/-- A meaning that ends the run has done the halt entry and nothing before it (R106, R108). -/
theorem ExecEffect.eq_haltedWith {i : Instr} (h : ExecEffect i s t) (running : s.rs = .running)
    (halted : t.rs = .halted) : t = haltedWith t.hc s := by
  cases h with
  | halts c => rfl
  | acc | word | jump | fall | readIssue | output => cases running.symm.trans halted

/-- Settles O26: a halting step is the halt entry on the fetched state, or on the untouched one if the fetch failed. -/
theorem faultsArePrecise : Obligations.FaultsArePrecise := by
  intro s ct en t h halted
  by_cases inside : InMem s.pc
  · rw [step_inside ct en inside] at h
    rw [(exec_next h).eq_haltedWith (s := fetched s) en.1 halted]
    exact ⟨rfl, fun _ _ => rfl, rfl, rfl, fun _ => ⟨rfl, word_split _, operandOf_range _, rfl⟩,
      fun outside => absurd inside outside⟩
  · rw [step_outside ct en inside] at h
    cases h
    exact ⟨rfl, fun _ _ => rfl, rfl, rfl, fun inMem => absurd inMem inside, fun _ => ⟨⟨rfl, rfl, rfl⟩, rfl⟩⟩

/-- HALT's row of R78. -/
theorem wholeExecute_halt (opc : t.opc = 43) : wholeExecute t = haltedWith .halt t := by
  simp [wholeExecute, opc]

/-- DIVIDE's row of R78 at divisor 0. -/
theorem wholeExecute_divide_by_zero (opc : t.opc = 32) (zero : t.word t.opd = 0) :
    wholeExecute t = haltedWith .divideByZero t := by
  simp [wholeExecute, opc, zero]

/-- R78's row for every operation code outside the table. -/
theorem wholeExecute_unknown (opc : t.opc ∉ definedOpcodes) : wholeExecute t = haltedWith .unknownOpcode t := by
  simp only [definedOpcodes, List.mem_cons, List.not_mem_nil, or_false, not_or] at opc
  simp [wholeExecute, opc]

/-- The other rows of R78 write neither `RS` nor `HC`. -/
theorem wholeExecute_runs_on (opc : t.opc ∈ [10, 11, 20, 21, 30, 31, 32, 33, 40, 41, 42])
    (noFault : ¬ (t.opc = 32 ∧ t.word t.opd = 0)) : (wholeExecute t).rs = t.rs ∧ (wholeExecute t).hc = t.hc := by
  by_cases divide : t.opc = 32
  · have nonzero : t.word t.opd ≠ 0 := fun zero => noFault ⟨divide, zero⟩
    simp [wholeExecute, divide, nonzero]
  by_cases branchneg : t.opc = 41
  · by_cases taken : t.acc < 0 <;> simp [wholeExecute, branchneg, taken]
  by_cases branchzero : t.opc = 42
  · by_cases taken : t.acc = 0 <;> simp [wholeExecute, branchzero, taken]
  · simp only [List.mem_cons, List.not_mem_nil, divide, branchneg, branchzero, or_false, false_or] at opc
    rcases opc with opc | opc | opc | opc | opc | opc | opc | opc <;> simp [wholeExecute, opc]

/-- The fetch latches the two fields of a word written as `100·q + m` (R61, R74). -/
theorem fetched_fields {q m : Int} (word : s.word s.pc = 100 * q + m) (hm : InMem m) :
    (fetched s).opc = q ∧ (fetched s).opd = m :=
  ⟨(congrArg opcodeOf word).trans (opcodeOf_join q m hm), (congrArg operandOf word).trans (operandOf_join q m hm)⟩

/-- Settles O27: R78's step, row by row of its operation code. -/
theorem haltCauseOfStep : Obligations.HaltCauseOfStep := by
  intro s ct en
  refine ⟨fun outside => ⟨_, step_outside ct en outside, rfl, rfl⟩, fun q m inside word hm => ?_⟩
  obtain ⟨rfl, rfl⟩ := fetched_fields word hm
  refine ⟨_, step_eq_wholeStep ct en, ?_⟩
  rw [wholeStep_inside inside]
  refine ⟨fun halt => ?_, fun unknown => ?_, fun divide zero => ?_, fun runs noFault => ?_⟩
  · rw [wholeExecute_halt halt]
    exact ⟨rfl, rfl⟩
  · rw [wholeExecute_unknown unknown]
    exact ⟨rfl, rfl⟩
  · rw [wholeExecute_divide_by_zero divide zero]
    exact ⟨rfl, rfl⟩
  · obtain ⟨rs, hc⟩ := wholeExecute_runs_on (t := fetched s) runs noFault
    exact ⟨rs.trans en.1, hc⟩

/-- Settles O32: the core has no step, a load is not admitted, and `Run` does nothing to a running core. -/
theorem waitKeepsState : Obligations.WaitKeepsState := by
  rintro s t ⟨running, pending⟩ h notReset notInput
  have notReady : s.rs ≠ .ready := by simp [running]
  rcases step_cases h with ⟨e, rest, hs, -, he⟩ | ⟨en, -, -⟩ | ⟨en, -⟩
  · have offered : s.script.head? = some (.host e) := by rw [hs]; rfl
    cases he with
    | reset => exact absurd offered notReset
    | inputInside v | inputOutside v => exact absurd offered (notInput v)
    | run =>
      simp only [if_neg notReady]
      exact sameTuple_record s _ _
    | dumpReq => exact sameTuple_record s _ _
    | loadAbort ready | loadFits _ ready | loadOver _ ready => exact absurd ready notReady
  · exact absurd en.2 pending
  · exact absurd en.2 pending

/-- Settles O40: `step_dumpReq`, whose snapshot lists the 100 words in address order. -/
theorem dumpShowsStateUnchanged : Obligations.DumpShowsStateUnchanged := by
  intro s rest notRunning hs
  have stopped : s.rs = .ready ∨ s.rs = .halted := by
    cases rs : s.rs with
    | ready => exact .inl rfl
    | halted => exact .inr rfl
    | running => exact absurd rs notRunning
  exact ⟨_, _, step_dumpReq stopped hs, sameTuple_record s _ _, rfl, rfl, rfl, rfl, rfl, rfl, rfl, rfl,
    allWords_length s, fun _ hi => allWords_get hi s⟩

end Sys2Proof.Machine
end

section
/-! Reset (70_reset_and_hazards.md R125), taken in every run state and also while a READ waits. -/

namespace Sys2Proof.Machine

/-- R125 as one equation on the step: of the state before, only the history and the rest of the script stay. -/
theorem step_reset {s : State} {rest : List Turn} (hs : s.script = .host .reset :: rest) :
    step s = .next { State.reset with hist := s.hist ++ [.reset], script := rest } := by
  rw [step_admitted hs (admitted_reset s), hostMove_reset]

/-- Settles O39: `step_reset`, field by field; every word is 0 because the memory lists none. -/
theorem resetEventRestoresResetState : Obligations.ResetEventRestoresResetState := by
  intro s rest hs
  exact ⟨_, step_reset hs, rfl, rfl, rfl, rfl, rfl, fun _ _ => rfl, rfl, rfl, rfl, rfl⟩

end Sys2Proof.Machine
end

section
/-! The canonical form is unique: the list can be recovered from the words it reads as (20_memory.md R27, R42; log entry 1). -/

namespace Sys2Proof.Machine

theorem Memory.wfFrom_cons {lo k : Nat} {v : Int} {rest : Memory} :
    Memory.wfFrom lo ((k, v) :: rest) = true ↔ lo ≤ k ∧ k < 100 ∧ v ≠ Memory.unlisted ∧ rest.wfFrom (k + 1) = true := by
  simp only [Memory.wfFrom, Bool.and_eq_true, decide_eq_true_eq, and_assoc]

theorem Memory.read_cons_same (k : Nat) (v : Int) (rest : Memory) : Memory.read ((k, v) :: rest) k = v := if_pos rfl

theorem Memory.read_cons_other {k a : Nat} (h : k ≠ a) (v : Int) (rest : Memory) :
    Memory.read ((k, v) :: rest) a = rest.read a := if_neg h

theorem Memory.le_of_read_ne_unlisted {m : Memory} {lo a : Nat} (w : m.wfFrom lo = true)
    (listed : m.read a ≠ Memory.unlisted) : lo ≤ a :=
  Nat.le_of_not_lt fun below => listed (Memory.read_below below w)

/-- The first listed index is the least one that does not read as unlisted, so no list that reads alike starts above it. -/
theorem Memory.head_le_of_read_eq {lo lo' k k' : Nat} {v v' : Int} {rest rest' : Memory}
    (w : Memory.wfFrom lo ((k, v) :: rest) = true) (w' : Memory.wfFrom lo' ((k', v') :: rest') = true)
    (alike : ∀ a < 100, Memory.read ((k, v) :: rest) a = Memory.read ((k', v') :: rest') a) : k' ≤ k := by
  obtain ⟨-, inside, listed, -⟩ := Memory.wfFrom_cons.mp w
  obtain ⟨-, facts'⟩ := Memory.wfFrom_cons.mp w'
  have fromHead : Memory.wfFrom k' ((k', v') :: rest') = true := Memory.wfFrom_cons.mpr ⟨le_rfl, facts'⟩
  refine Memory.le_of_read_ne_unlisted fromHead ?_
  rwa [← alike k inside, Memory.read_cons_same]

/-- A list with no entry reads as unlisted everywhere; a canonical one with an entry does not. -/
theorem Memory.not_read_alike_nil {lo k : Nat} {v : Int} {rest : Memory} (w : Memory.wfFrom lo ((k, v) :: rest) = true) :
    ¬ ∀ a < 100, Memory.read ((k, v) :: rest) a = Memory.unlisted := by
  obtain ⟨-, inside, listed, -⟩ := Memory.wfFrom_cons.mp w
  intro alike
  exact listed ((Memory.read_cons_same k v rest).symm.trans (alike k inside))

/-- Below the shared head both rests read as unlisted; above it the whole lists read as the rests do. -/
theorem Memory.rest_read_eq {k : Nat} {v : Int} {rest rest' : Memory} (w : rest.wfFrom (k + 1) = true)
    (w' : rest'.wfFrom (k + 1) = true)
    (alike : ∀ a < 100, Memory.read ((k, v) :: rest) a = Memory.read ((k, v) :: rest') a) :
    ∀ a < 100, rest.read a = rest'.read a := by
  intro a inside
  by_cases below : a < k + 1
  · rw [Memory.read_below below w, Memory.read_below below w']
  · have other : k ≠ a := by omega
    have same := alike a inside
    rwa [Memory.read_cons_other other, Memory.read_cons_other other] at same

theorem Memory.eq_of_read_eq : ∀ {lo lo' : Nat} {m m' : Memory}, m.wfFrom lo = true → m'.wfFrom lo' = true →
    (∀ a < 100, m.read a = m'.read a) → m = m'
  | _, _, [], [], _, _, _ => rfl
  | _, _, [], _ :: _, _, w', alike => absurd (fun a ha => (alike a ha).symm) (Memory.not_read_alike_nil w')
  | _, _, _ :: _, [], w, _, alike => absurd alike (Memory.not_read_alike_nil w)
  | _, _, (k, v) :: rest, (k', v') :: rest', w, w', alike => by
    have index : k = k' :=
      le_antisymm (Memory.head_le_of_read_eq w' w fun a ha => (alike a ha).symm) (Memory.head_le_of_read_eq w w' alike)
    subst index
    obtain ⟨-, inside, -, wRest⟩ := Memory.wfFrom_cons.mp w
    obtain ⟨-, -, -, wRest'⟩ := Memory.wfFrom_cons.mp w'
    have value : v = v' := by
      have same := alike k inside
      rwa [Memory.read_cons_same, Memory.read_cons_same] at same
    subst value
    rw [Memory.eq_of_read_eq wRest wRest' (Memory.rest_read_eq wRest wRest' alike)]

/-- Settles O42: the words in bounds are the reads at the indexes below 100, which determine a canonical list. -/
theorem canonicalMemoriesThatReadAlikeAreEqual : Obligations.CanonicalMemoriesThatReadAlikeAreEqual := by
  intro s t ws wt words
  refine Memory.eq_of_read_eq ws wt fun a ha => ?_
  have inside : InMem (a : Int) := by omega
  exact (words a inside).symm

end Sys2Proof.Machine
end
